-- ==== Sys2Proof/Word.lean ====
section
/-! DEFINITION. The widths of the block's words (spec R10, R12, R65, R66) and the Instant (R15). Every value is unsigned. -/

namespace Sys2Proof

/-- An operation word: opcode in bits 71:64, argument in bits 63:0 (R65). -/
abbrev OpWord := BitVec 72

/-- The 8-bit opcode `w[71:64]` (R65). -/
abbrev Opcode := BitVec 8

/-- The 64-bit argument `w[63:0]` (R65). -/
abbrev Arg := BitVec 64

/-- The 64-bit response of a CMD operation (R66). -/
abbrev Response := BitVec 64

/-- A 32-bit time quantity: a seconds field, a microseconds field or the result of `elapsed` (R10). -/
abbrev Time32 := BitVec 32

/-- A brightness level, compare value or PWM count (R10). -/
abbrev Level := BitVec 8

/-- An Instant: whole seconds and sub-second microseconds (R15). -/
structure Instant where
  sec : Time32
  usec : Time32
deriving DecidableEq, Repr

end Sys2Proof
end

