-- ==== Sys2Proof/Machine/Operands.lean ====
section
/-! DEFINITION. The fields of an operation word (spec R65), operand assembly (R69), response layout (R66) and the named
constants (R11). -/

namespace Sys2Proof.Machine

/-- `USEC_PER_SEC` (R11). -/
abbrev usecPerSec : Nat := 1000000

/-- `LEVEL_OFF` (R11). -/
abbrev levelOff : Level := 0#8

/-- `LEVEL_FULL` (R11). -/
abbrev levelFull : Level := 255#8

/-- `PWM_TOP`, the largest PWM count, so that the PWM period is 256 counts (R11). -/
abbrev pwmTop : Level := 255#8

/-- `op = w[71:64]` (R65). -/
def opcodeOf (w : OpWord) : Opcode := w.extractLsb' 64 8

/-- `arg = w[63:0]` (R65). -/
def argOf (w : OpWord) : Arg := w.extractLsb' 0 64

/-- The operation word with opcode `op` and argument `arg` (R65). -/
def wordOf (op : Opcode) (arg : Arg) : OpWord := op ++ arg

/-- `raw = arg[0]` (R69). -/
def rawOf (arg : Arg) : Bool := arg.getLsbD 0

/-- `level = arg[7:0]` (R69). -/
def levelOf (arg : Arg) : Level := arg.extractLsb' 0 8

/-- `since_sec = arg[63:32]` (R69). -/
def sinceSecOf (arg : Arg) : Time32 := arg.extractLsb' 32 32

/-- `since_usec = arg[31:0]` (R69). -/
def sinceUsecOf (arg : Arg) : Time32 := arg.extractLsb' 0 32

/-- An Instant packed in 64 bits, `sec ++ usec` (R15). -/
def packInstant (t : Instant) : BitVec 64 := t.sec ++ t.usec

/-- The Instant a 64-bit word holds, the inverse of `packInstant` (R15, R69). -/
def unpackInstant (v : BitVec 64) : Instant := ⟨sinceSecOf v, sinceUsecOf v⟩

/-- `zext_64` of a boolean (R12, R66). -/
def zextBool (b : Bool) : BitVec 64 := (BitVec.ofBool b).setWidth 64

/-- `zext_64` of a level (R12, R66). -/
def zextLevel (l : Level) : BitVec 64 := l.setWidth 64

/-- `zext_64` of a 32-bit quantity (R12, R66). -/
def zextTime (t : Time32) : BitVec 64 := t.setWidth 64

end Sys2Proof.Machine
end

