-- ==== Sys2Proof/Syntax.lean ====
section
/-! DEFINITION. The seven operations of the opcode table (spec R70), the two ports (R67) and the three agents (R7). -/

namespace Sys2Proof

/-- The two input ports (R67): EV for events, CMD for commands. -/
inductive Port where
  | ev
  | cmd
deriving DecidableEq, Repr

/-- The three agents that act on the block (R7). -/
inductive Agent where
  | ticksrc
  | pwmtmr
  | host
deriving DecidableEq, Repr

/-- The four argument formats (R68): no operand, one boolean, one level, one Instant. -/
inductive Format where
  | z
  | b
  | l
  | i
deriving DecidableEq, Repr

/-- The rows of the opcode table (R70), by mnemonic. -/
inductive Operation where
  | tick
  | pwmclk
  | now
  | elapsed
  | isDown
  | setBrightness
  | getBrightness
deriving DecidableEq, Repr

/-- An operation with its operands (R69, R70): what an operation word stands for. Each operand's type admits exactly
the values its field of the word can hold, all of which are legal (R69, R150). -/
inductive Instr where
  /-- `TICK raw`, R90. -/
  | tick (raw : Bool)
  /-- `PWMCLK`, R127. -/
  | pwmclk
  /-- `NOW`, R92. -/
  | now
  /-- `ELAPSED since_sec, since_usec`, R93. -/
  | elapsed (sinceSec sinceUsec : Time32)
  /-- `IS_DOWN`, R111. -/
  | isDown
  /-- `SET_BRIGHTNESS level`, R125. -/
  | setBrightness (level : Level)
  /-- `GET_BRIGHTNESS`, R126. -/
  | getBrightness
deriving DecidableEq, Repr

end Sys2Proof
end

