-- ==== Sys2Proof/Decode.lean ====
section
/-! DEFINITION. The opcode map (spec R70), decoding by field and format (R65, R68, R72), the opcode table's masks (R74),
and the encoder. -/

namespace Sys2Proof

open Sys2Proof.Machine

/-- Why a word is illegal (R72). The names are the model's; the block reports only that the word is illegal. -/
inductive Illegal where
  /-- (a) the opcode is reserved. -/
  | reservedOpcode
  /-- (c) the word is on the wrong port (R71). -/
  | wrongPort
  /-- (b) a "must be 0" bit of the format is 1. -/
  | mustBeZero
deriving DecidableEq, Repr

/-- What a word on a port decodes to (R74): an operation, or nothing, with the reason. -/
inductive Decoded where
  | operation (i : Instr)
  | illegal (why : Illegal)
deriving DecidableEq, Repr

/-- The opcode of each operation (R70). -/
def Operation.opcode : Operation → Opcode
  | .tick => 0x01#8
  | .pwmclk => 0x02#8
  | .now => 0x10#8
  | .elapsed => 0x11#8
  | .isDown => 0x12#8
  | .setBrightness => 0x13#8
  | .getBrightness => 0x14#8

/-- The port of each operation (R70, R71). -/
def Operation.port : Operation → Port
  | .tick => .ev
  | .pwmclk => .ev
  | .now => .cmd
  | .elapsed => .cmd
  | .isDown => .cmd
  | .setBrightness => .cmd
  | .getBrightness => .cmd

/-- The format of each operation (R68, R70). -/
def Operation.format : Operation → Format
  | .tick => .b
  | .pwmclk => .z
  | .now => .z
  | .elapsed => .i
  | .isDown => .z
  | .setBrightness => .l
  | .getBrightness => .z

/-- The "must be 0" bits of the argument in each format (R68). -/
def Format.mustBeZero : Format → Arg
  | .z => 0xFFFFFFFFFFFFFFFF#64
  | .b => 0xFFFFFFFFFFFFFFFE#64
  | .l => 0xFFFFFFFFFFFFFF00#64
  | .i => 0x0000000000000000#64

/-- The operation an opcode names, or none if it is reserved (R70). -/
def operationOf (op : Opcode) : Option Operation :=
  if op = 0x01#8 then some .tick
  else if op = 0x02#8 then some .pwmclk
  else if op = 0x10#8 then some .now
  else if op = 0x11#8 then some .elapsed
  else if op = 0x12#8 then some .isDown
  else if op = 0x13#8 then some .setBrightness
  else if op = 0x14#8 then some .getBrightness
  else none

/-- The operation with the operands of R69 taken from the argument. -/
def assemble (o : Operation) (arg : Arg) : Instr :=
  match o with
  | .tick => .tick (rawOf arg)
  | .pwmclk => .pwmclk
  | .now => .now
  | .elapsed => .elapsed (sinceSecOf arg) (sinceUsecOf arg)
  | .isDown => .isDown
  | .setBrightness => .setBrightness (levelOf arg)
  | .getBrightness => .getBrightness

/-- The decoder of one port, total on all 72-bit words (R72, R74). -/
def decode (p : Port) (w : OpWord) : Decoded :=
  match operationOf (opcodeOf w) with
  | none => .illegal .reservedOpcode
  | some o =>
    if o.port ≠ p then .illegal .wrongPort
    else if argOf w &&& o.format.mustBeZero ≠ 0#64 then .illegal .mustBeZero
    else .operation (assemble o (argOf w))

/-- One row of the opcode table (R74): a word `w` on `port` matches when `w &&& mask = pattern`. -/
structure Row where
  operation : Operation
  port : Port
  pattern : OpWord
  mask : OpWord
deriving DecidableEq, Repr

/-- The seven rows of the opcode table, as R74 writes them. -/
def opcodeTable : List Row :=
  [ ⟨.tick, .ev, 0x010000000000000000#72, 0xFFFFFFFFFFFFFFFFFE#72⟩,
    ⟨.pwmclk, .ev, 0x020000000000000000#72, 0xFFFFFFFFFFFFFFFFFF#72⟩,
    ⟨.now, .cmd, 0x100000000000000000#72, 0xFFFFFFFFFFFFFFFFFF#72⟩,
    ⟨.elapsed, .cmd, 0x110000000000000000#72, 0xFF0000000000000000#72⟩,
    ⟨.isDown, .cmd, 0x120000000000000000#72, 0xFFFFFFFFFFFFFFFFFF#72⟩,
    ⟨.setBrightness, .cmd, 0x130000000000000000#72, 0xFFFFFFFFFFFFFFFF00#72⟩,
    ⟨.getBrightness, .cmd, 0x140000000000000000#72, 0xFFFFFFFFFFFFFFFFFF#72⟩ ]

/-- The word `w` on port `p` matches the row (R74). -/
def Row.accepts (r : Row) (p : Port) (w : OpWord) : Bool :=
  decide (r.port = p) && decide (w &&& r.mask = r.pattern)

/-- The row of the table an operation belongs to (R70). -/
def Instr.operation : Instr → Operation
  | .tick _ => .tick
  | .pwmclk => .pwmclk
  | .now => .now
  | .elapsed _ _ => .elapsed
  | .isDown => .isDown
  | .setBrightness _ => .setBrightness
  | .getBrightness => .getBrightness

/-- The port an operation is legal on (R71). -/
def Instr.port (i : Instr) : Port := i.operation.port

/-- The agent that issues an operation (R7). -/
def Instr.agent : Instr → Agent
  | .tick _ => .ticksrc
  | .pwmclk => .pwmtmr
  | .now => .host
  | .elapsed _ _ => .host
  | .isDown => .host
  | .setBrightness _ => .host
  | .getBrightness => .host

/-- The port an agent presents its words on (R7). -/
def Agent.port : Agent → Port
  | .ticksrc => .ev
  | .pwmtmr => .ev
  | .host => .cmd

/-- The argument that carries an operation's operands (R68, R69). -/
def Instr.arg : Instr → Arg
  | .tick raw => zextBool raw
  | .pwmclk => 0#64
  | .now => 0#64
  | .elapsed sinceSec sinceUsec => packInstant ⟨sinceSec, sinceUsec⟩
  | .isDown => 0#64
  | .setBrightness level => zextLevel level
  | .getBrightness => 0#64

/-- The operation word of an operation (R65, R68, R70, R75). -/
def encode (i : Instr) : OpWord := wordOf i.operation.opcode i.arg

/-- The port whose range an opcode lies in: 0x00 to 0x0F are kept for EV, the others go to CMD (R70). -/
def portOfOpcode (op : Opcode) : Port := if op.toNat < 0x10 then .ev else .cmd

/-- The operation a decoded word stands for, if it is legal. -/
def Decoded.toOption : Decoded → Option Instr
  | .operation i => some i
  | .illegal _ => none

/-- The operation read from the `nbits` bits `w` of a table row, the bits above them 0: the word is decoded on the port
its opcode is kept for (R70, R74). -/
def decodeTableWord (nbits w : Nat) : Option Instr :=
  if nbits ≤ 72 ∧ w < 2 ^ nbits then
    (decode (portOfOpcode (opcodeOf (BitVec.ofNat 72 w))) (BitVec.ofNat 72 w)).toOption
  else none

end Sys2Proof
end

