-- ==== Sys2Proof/Config.lean ====
section
/-! DEFINITION. What is fixed before reset (the parameters P and T, spec R8, R9) and the one choice the block leaves
open (the order of words presented together, R67, R154). -/

namespace Sys2Proof

/-- The threshold a model takes when it is given none (R9: "the default `T = 30`"). -/
def Config.defaultThreshold : Nat := 30

/-- The parameters a model takes as arguments: the tick period `P` in microseconds (R8) and the debounce threshold `T`
in ticks (R9), with its default. A pair outside the two ranges is not this hardware (U7) and cannot be written down. -/
structure Params where
  period : Nat
  threshold : Nat := Config.defaultThreshold
  period_range : 1 ≤ period ∧ period ≤ 1000000 := by decide
  threshold_range : 1 ≤ threshold ∧ threshold ≤ 255 := by decide
deriving DecidableEq, Repr

namespace Config

/-- `P - 1` of the machine at hand: OPEN, so without a value (R8, U10). -/
opaque periodIndex : Fin 1000000

/-- What the machine at hand is given for T: `T - 1`, or nothing. A parameter, so without a value (R9, U13). -/
opaque givenThreshold : Option (Fin 255)

/-- Whether CMD goes first at the n-th simultaneous presentation: the order is not fixed by the block (R67, R154), so
this is a FREE VALUE (log 3). -/
opaque commandFirst : Nat → Bool

/-- The T of a machine that is given `T - 1`, or that is given no T and takes the default (R9). -/
def thresholdOf (given : Option (Fin 255)) : Nat :=
  match given with
  | some index => index.val + 1
  | none => defaultThreshold

theorem thresholdOf_range (given : Option (Fin 255)) : 1 ≤ thresholdOf given ∧ thresholdOf given ≤ 255 := by
  cases given with
  | none => decide
  | some index => exact ⟨Nat.succ_le_succ (Nat.zero_le _), index.isLt⟩

/-- The parameters of a machine that is given `P - 1`, and `T - 1` or no T (R8, R9). -/
def paramsOf (index : Fin 1000000) (given : Option (Fin 255)) : Params where
  period := index.val + 1
  threshold := thresholdOf given
  period_range := ⟨Nat.succ_le_succ (Nat.zero_le _), index.isLt⟩
  threshold_range := thresholdOf_range given

/-- The machine's own parameters: any P in range; any T in range, 30 where none is given. -/
def params : Params := paramsOf periodIndex givenThreshold

end Config

end Sys2Proof
end

