-- ==== Sys2Proof/WellFormed.lean ====
section
/-! DEFINITION. Well-formedness of operands, of Instants and of what the outside presents. -/

namespace Sys2Proof

/-- Every operand value an operation can carry is legal (R69: "every value legal"; R93 (e): `since` is not checked;
R150: each operation "is defined for every value of its operand"), so no operation is ill formed. -/
def Instr.wellFormed : Instr → Bool
  | .tick _ => true
  | .pwmclk => true
  | .now => true
  | .elapsed _ _ => true
  | .isDown => true
  | .setBrightness _ => true
  | .getBrightness => true

/-- The Instant invariant (R15): the sub-second component is in [0, 1_000_000). It binds the Instants the Time Base
produces; `ELAPSED` does not check it (R93 (e)). -/
def Instant.wellFormed (t : Instant) : Bool := decide (t.usec.toNat < 1000000)

/-- What the pins carry at one presentation: RESET (R175) and, on each port, `valid` with its word (`some w`) or
nothing valid (`none`) (R67). -/
structure Pins where
  reset : Bool
  ev : Option OpWord
  cmd : Option OpWord
deriving DecidableEq, Repr

/-- The platform duty of R179 (d): no agent presents a word while RESET is asserted. The block itself copes with a
presentation that breaks it (R175). -/
def Pins.wellFormed (p : Pins) : Bool := !(p.reset && (p.ev.isSome || p.cmd.isSome))

end Sys2Proof
end

