-- ==== Sys2Proof/Machine/State.lean ====
section
/-! DEFINITION. The ten fields of the block (spec R20), the state of the model around them, and the state after RESET
(R39, R176). -/

namespace Sys2Proof.Machine

/-- The complete state of the block: the ten fields of R20, 100 bits. The block has no other state (R20, R37); one-bit
fields are booleans (R12). -/
structure Block where
  /-- `tb_sec`, whole seconds since reset (R21). -/
  tbSec : Time32
  /-- `tb_usec`, sub-second microseconds (R22). -/
  tbUsec : Time32
  /-- `db_cnt`, consecutive disagreeing ticks (R23). -/
  dbCnt : BitVec 8
  /-- `db_down`, the published button state (R24). -/
  dbDown : Bool
  /-- `br_level`, the brightness level (R25). -/
  brLevel : Level
  /-- `pwm_ocr`, the compare register (R26). -/
  pwmOcr : Level
  /-- `pwm_ovf_en`, overflow event armed (R27). -/
  pwmOvfEn : Bool
  /-- `pwm_cmp_en`, compare-match event armed (R28). -/
  pwmCmpEn : Bool
  /-- `pwm_cnt`, the free-running PWM count (R29). -/
  pwmCnt : Level
  /-- `lamp`, the output pin (R30). -/
  lamp : Bool
deriving DecidableEq, Repr

/-- The reset values of the ten fields, all zero (R39, R176). -/
def Block.reset : Block where
  tbSec := 0#32
  tbUsec := 0#32
  dbCnt := 0#8
  dbDown := false
  brLevel := 0#8
  pwmOcr := 0#8
  pwmOvfEn := false
  pwmCmpEn := false
  pwmCnt := 0#8
  lamp := false

/-- The port outputs of one step (R66, R67, R72): `rsp` is `none` in a step that performs no CMD word, since EV
operations return nothing. Not state of the block (R34): each step writes all three afresh (log 4). -/
structure Outputs where
  rsp : Option Response
  cmdIll : Bool
  evIll : Bool
deriving DecidableEq, Repr

/-- The outputs of a step that performs no CMD word and no illegal word (R72). -/
def Outputs.quiet : Outputs := ⟨none, false, false⟩

/-- The state of the model: the block, and around it what the spec keeps apart from the block's state (R38). -/
structure State where
  /-- The block (R20). -/
  block : Block
  /-- The parameters P and T the model takes as arguments (R8, R9); no operation reads them as data or writes them. -/
  params : Params
  /-- What the outside presents from here on, oldest first: the schedule (R38, R57; log 2). -/
  inputs : List Pins
  /-- How many simultaneous presentations have been resolved: the argument of the free value `Config.commandFirst`
  (R154; log 3). -/
  ties : Nat
  /-- The port outputs of the step just performed (R66, R72; log 4). -/
  out : Outputs
deriving DecidableEq, Repr

/-- A reason to stop with a fault. There is none: the block raises no exception and has no fault state (R150). -/
inductive Fault where
deriving DecidableEq, Repr

/-- A reason to give no meaning. -/
inductive Refusal where
  /-- The host's name for an operation without a meaning. No arm of `exec` and no step raises it. Safe. -/
  | notModelled (mnemonic : String)
deriving DecidableEq, Repr

/-- The machine right after RESET (R39, R176): the block all zero, nothing presented, no output. -/
def State.reset : State where
  block := Block.reset
  params := Config.params
  inputs := []
  ties := 0
  out := Outputs.quiet

/-- The result of an operation or a step. -/
abbrev Result := Host.Outcome State Fault Refusal

end Sys2Proof.Machine
end

