-- ==== Sys2Proof/Machine/Flags.lean ====
section
/-! DEFINITION. The one-bit signals and port outputs of a step. The block has no condition codes (spec R34): what stands
here are the outputs of R66 and R72 and the two PWM event conditions of R127. -/

namespace Sys2Proof.Machine

/-- A CMD operation returns `r` and raises no flag (R66, R72). -/
def Outputs.response (r : Response) : Outputs := ⟨some r, false, false⟩

/-- The outputs of an illegal word (R72): on CMD `rsp = 0` and `cmd_ill = 1`, on EV `ev_ill = 1`. -/
def Outputs.illegal : Port → Outputs
  | .cmd => ⟨some 0#64, true, false⟩
  | .ev => ⟨none, false, true⟩

/-- The overflow event occurs when the new count is 0 (R127, R128). -/
def overflowsAt (cnt : Level) : Bool := decide (cnt = 0#8)

/-- The compare-match event occurs when the new count equals the compare register (R127, R129). -/
def matchesAt (cnt ocr : Level) : Bool := decide (cnt = ocr)

/-- A level other than 0 and 255 (R16 "dimmed level"; R125). -/
def isDimmed (level : Level) : Bool := decide (level ≠ levelOff) && decide (level ≠ levelFull)

end Sys2Proof.Machine
end

