-- ==== Sys2Proof/Machine/Ops.lean ====
section
/-! DEFINITION. The named operations over the block that the rules are written in, and the two ways a step ends: with a
response or with none. Taking an event is the operation itself: nothing is saved and no mode changes (spec R155). -/

namespace Sys2Proof.Machine

/-- `tb_tick()` (R91): add P, carry once at 1_000_000. -/
def Block.tbTick (p : Params) (b : Block) : Block :=
  let usec' := b.tbUsec.toNat + p.period
  if usecPerSec ≤ usec' then
    { b with tbUsec := BitVec.ofNat 32 (usec' - usecPerSec), tbSec := b.tbSec + 1#32 }
  else
    { b with tbUsec := BitVec.ofNat 32 usec' }

/-- `db_sample(raw)` (R110): count consecutive disagreeing samples, flip the published state at T. -/
def Block.dbSample (p : Params) (raw : Bool) (b : Block) : Block :=
  if raw = b.dbDown then
    { b with dbCnt := 0#8 }
  else
    let cnt' := b.dbCnt.toNat + 1
    if p.threshold ≤ cnt' then
      { b with dbDown := raw, dbCnt := 0#8 }
    else
      { b with dbCnt := BitVec.ofNat 8 cnt' }

/-- Both halves of `TICK raw` (R90). They touch disjoint fields. -/
def Block.tick (p : Params) (raw : Bool) (b : Block) : Block :=
  (b.tbTick p).dbSample p raw

/-- The consistent snapshot of the Time Base (R55, R92). -/
def Block.instant (b : Block) : Instant := ⟨b.tbSec, b.tbUsec⟩

/-- The modular difference of R93, every operation modulo 2^32. -/
def Block.elapsedSince (b : Block) (since : Instant) : Time32 :=
  (b.tbSec - since.sec) * BitVec.ofNat 32 usecPerSec + (b.tbUsec - since.usec)

/-- The state effect of `SET_BRIGHTNESS level` (R125). -/
def Block.setLevel (level : Level) (b : Block) : Block :=
  if level = levelOff then
    { b with brLevel := level, lamp := false, pwmOvfEn := false, pwmCmpEn := false }
  else if level = levelFull then
    { b with brLevel := level, lamp := true, pwmOvfEn := false, pwmCmpEn := false }
  else
    { b with brLevel := level, pwmOcr := level, pwmOvfEn := true, pwmCmpEn := true }

/-- `pwm_overflow()` (R128): drive the pin high if armed. -/
def Block.pwmOverflow (b : Block) : Block :=
  if b.pwmOvfEn then { b with lamp := true } else b

/-- `pwm_compare()` (R129): force the pin low if armed. -/
def Block.pwmCompare (b : Block) : Block :=
  if b.pwmCmpEn then { b with lamp := false } else b

/-- The overflow event, if the new count raises it (R127). -/
def Block.overflowEvent (cnt : Level) (b : Block) : Block :=
  if overflowsAt cnt then b.pwmOverflow else b

/-- The compare-match event, if the new count raises it (R127). -/
def Block.compareEvent (cnt : Level) (b : Block) : Block :=
  if matchesAt cnt b.pwmOcr then b.pwmCompare else b

/-- One count of the PWM timer (R127): count, then the overflow, then the compare match (R130). -/
def Block.pwmCount (b : Block) : Block :=
  let cnt' := b.pwmCnt + 1#8
  ({ b with pwmCnt := cnt' }.overflowEvent cnt').compareEvent cnt'

/-- The block takes a new state, the rest of the model's state stands. -/
def State.withBlock (s : State) (b : Block) : State := { s with block := b }

/-- The step returns nothing and raises no flag: EV operations and steps without a word (R66, R67, R72). -/
def State.quiet (s : State) : State := { s with out := Outputs.quiet }

/-- The step returns `r` on CMD (R66). -/
def State.respond (s : State) (r : Response) : State := { s with out := Outputs.response r }

/-- The step performed an illegal word on port `p`: no field of the block changes (R72). -/
def State.signalIllegal (s : State) (p : Port) : State := { s with out := Outputs.illegal p }

/-- The RESET event (R175): every field of the block takes its reset value, whatever it was. -/
def State.resetEvent (s : State) : State := (s.withBlock Block.reset).quiet

end Sys2Proof.Machine
end

