-- ==== Sys2Proof/Machine/Debounce.lean ====
section
/-! DEFINITION. The meaning of `IS_DOWN` (spec R111); the sample half of `TICK` is `Block.dbSample` (R110). -/

namespace Sys2Proof.Machine

/-- `IS_DOWN` (R111): the published state, zero-extended. -/
def execIsDown (s : State) : Result :=
  .next (s.respond (zextBool s.block.dbDown))

end Sys2Proof.Machine
end

