-- ==== Sys2Proof/Machine/Pwm.lean ====
section
/-! DEFINITION. The meanings of `SET_BRIGHTNESS`, `GET_BRIGHTNESS` and `PWMCLK` (spec R125 to R130). -/

namespace Sys2Proof.Machine

/-- `SET_BRIGHTNESS level` (R125): `rsp = 0`. -/
def execSetBrightness (level : Level) (s : State) : Result :=
  .next ((s.withBlock (s.block.setLevel level)).respond 0#64)

/-- `GET_BRIGHTNESS` (R126): the level, zero-extended. -/
def execGetBrightness (s : State) : Result :=
  .next (s.respond (zextLevel s.block.brLevel))

/-- `PWMCLK` (R127): one count of the PWM timer; no response. -/
def execPwmclk (s : State) : Result :=
  .next (s.withBlock s.block.pwmCount).quiet

end Sys2Proof.Machine
end

