-- ==== Sys2Proof/Machine/TimeBase.lean ====
section
/-! DEFINITION. The meanings of `TICK`, `NOW` and `ELAPSED` (spec R90 to R93). -/

namespace Sys2Proof.Machine

/-- `TICK raw` (R90): the time base half (R91) and the debounce half (R110) in one atomic step; no response. -/
def execTick (raw : Bool) (s : State) : Result :=
  .next (s.withBlock (s.block.tick s.params raw)).quiet

/-- `NOW` (R92): `rsp = tb_sec ++ tb_usec`, both read from one state. -/
def execNow (s : State) : Result :=
  .next (s.respond (packInstant s.block.instant))

/-- `ELAPSED since_sec, since_usec` (R93): the difference modulo 2^32, not saturated, `since` not checked. -/
def execElapsed (sinceSec sinceUsec : Time32) (s : State) : Result :=
  .next (s.respond (zextTime (s.block.elapsedSince ⟨sinceSec, sinceUsec⟩)))

end Sys2Proof.Machine
end

