-- ==== Sys2Proof/Machine/Dispatch.lean ====
section
/-! DEFINITION. The meaning of every operation: one arm per constructor (spec R70). -/

namespace Sys2Proof.Machine

def exec (i : Instr) (s : State) : Host.Outcome State Fault Refusal :=
  match i with
  | .tick raw => Sys2Proof.Machine.execTick raw s
  | .pwmclk => Sys2Proof.Machine.execPwmclk s
  | .now => Sys2Proof.Machine.execNow s
  | .elapsed sinceSec sinceUsec => Sys2Proof.Machine.execElapsed sinceSec sinceUsec s
  | .isDown => Sys2Proof.Machine.execIsDown s
  | .setBrightness level => Sys2Proof.Machine.execSetBrightness level s
  | .getBrightness => Sys2Proof.Machine.execGetBrightness s

end Sys2Proof.Machine
end

