-- ==== Sys2Proof/Machine/Ports.lean ====
section
/-! DEFINITION. How the block takes what is presented at its ports (spec R67, R175), what it does with one presented word
(R72, R74), and what can be observed of a step (R189). -/

namespace Sys2Proof.Machine

/-- A presentation of one word on one port and nothing else (R67). -/
def presentWord (p : Port) (w : OpWord) : Pins :=
  match p with
  | .ev => ⟨false, some w, none⟩
  | .cmd => ⟨false, none, some w⟩

/-- A presentation of RESET and nothing else (R175). -/
def presentReset : Pins := ⟨true, none, none⟩

/-- The next presentation stands no longer; `rest` is what comes after it. -/
def State.withInputs (s : State) (rest : List Pins) : State := { s with inputs := rest }

/-- One word is performed on port `p` (R72, R74): a legal word's operation, or an illegal word's signal. -/
def perform (p : Port) (w : OpWord) (s : State) : Result :=
  match decode p w with
  | .operation i => exec i s
  | .illegal _ => .next (s.signalIllegal p)

/-- Two words presented together are performed one after the other in an order the block does not fix (R67, R154): the
free value `Config.commandFirst` names the port that goes first, the other word stays presented. -/
def performOneOf (ev cmd : OpWord) (rest : List Pins) (s : State) : Result :=
  if Config.commandFirst s.ties then
    perform .cmd cmd { s with inputs := presentWord .ev ev :: rest, ties := s.ties + 1 }
  else
    perform .ev ev { s with inputs := presentWord .cmd cmd :: rest, ties := s.ties + 1 }

/-- One presentation: RESET wins and discards any word (R175); a port with `valid = 0` presents nothing (R67). -/
def performPins (pins : Pins) (rest : List Pins) (s : State) : Result :=
  if pins.reset then .next (s.withInputs rest).resetEvent
  else
    match pins.ev, pins.cmd with
    | some ev, some cmd => performOneOf ev cmd rest s
    | some ev, none => perform .ev ev (s.withInputs rest)
    | none, some cmd => perform .cmd cmd (s.withInputs rest)
    | none, none => .next (s.withInputs rest).quiet

/-- One step of the block: the oldest presentation, or nothing if none is left (R57, R67). -/
def performNext (s : State) : Result :=
  match s.inputs with
  | [] => .next s.quiet
  | pins :: rest => performPins pins rest s

/-- What the outside can see of a step (R189): the pin, the response and the two illegal flags. -/
structure Observation where
  lamp : Bool
  rsp : Option Response
  cmdIll : Bool
  evIll : Bool
deriving DecidableEq, Repr

/-- What can be observed in a state, right after the step that led to it (R189). -/
def State.observe (s : State) : Observation :=
  ⟨s.block.lamp, s.out.rsp, s.out.cmdIll, s.out.evIll⟩

end Sys2Proof.Machine
end

