-- ==== Sys2Proof/Machine/Step.lean ====
section
/-! DEFINITION. One step of the machine (spec R57, R67), and how a word is placed where the next step takes it. -/

namespace Sys2Proof.Machine

/-- One step: the oldest presentation is performed as one atomic step (R55, R57). -/
def step (s : State) : Host.Outcome State Fault Refusal := performNext s

/-- `s` with the word whose low `nbits` bits are `w` presented next, alone, on the port its opcode is kept for (R70). -/
def State.withFetchWord (s : State) (nbits w : Nat) : State :=
  let word := BitVec.ofNat 72 (w % 2 ^ nbits)
  { s with inputs := presentWord (portOfOpcode (opcodeOf word)) word :: s.inputs }

end Sys2Proof.Machine
end

