-- ==== Sys2Proof/Machine/Schedule.lean ====
section
/-! DEFINITION. Sequences of operations, the pseudo-operations and the text form of operations (spec R75, R76). -/

namespace Sys2Proof.Machine

/-- A list of operations performed top to bottom in one total order (R57, R75). -/
def execAll : List Instr → State → Result
  | [], s => .next s
  | i :: is, s =>
    match exec i s with
    | .next t => execAll is t
    | .fault r => .fault r
    | .refused r => .refused r

/-- The presentation of one operation, alone, on its own port (R67, R75). -/
def present (i : Instr) : Pins := presentWord i.port (encode i)

/-- `TICKN n, raw` (R76). -/
def tickN (n : Nat) (raw : Bool) : List Pins := List.replicate n (present (.tick raw))

/-- `PWMCLKN n` (R76). -/
def pwmclkN (n : Nat) : List Pins := List.replicate n (present .pwmclk)

/-- `RESET`, which is no word (R76, R175). -/
def resetLine : List Pins := [presentReset]

/-- `ELAPSED_SINCE name`: `ELAPSED` with the pair that an earlier `NOW` returned (R76). -/
def elapsedSinceResponse (nowRsp : Response) : Instr :=
  .elapsed (unpackInstant nowRsp).sec (unpackInstant nowRsp).usec

/-- The mnemonic of an operation (R70, R75). -/
def mnemonicOf : Operation → String
  | .tick => "TICK"
  | .pwmclk => "PWMCLK"
  | .now => "NOW"
  | .elapsed => "ELAPSED"
  | .isDown => "IS_DOWN"
  | .setBrightness => "SET_BRIGHTNESS"
  | .getBrightness => "GET_BRIGHTNESS"

/-- A decimal digit string. -/
def decimal (n : Nat) : String := String.ofList (Nat.toDigits 10 n)

/-- One line of a trace (R75). -/
def lineOf (i : Instr) : String :=
  match i with
  | .tick raw => mnemonicOf i.operation ++ " " ++ decimal raw.toNat
  | .elapsed sec usec => mnemonicOf i.operation ++ " " ++ decimal sec.toNat ++ ", " ++ decimal usec.toNat
  | .setBrightness level => mnemonicOf i.operation ++ " " ++ decimal level.toNat
  | .pwmclk => mnemonicOf i.operation
  | .now => mnemonicOf i.operation
  | .isDown => mnemonicOf i.operation
  | .getBrightness => mnemonicOf i.operation

/-- The result of an operation as a trace writes it after `->`, if it has one (R75). -/
def resultOf (i : Instr) (r : Response) : Option String :=
  match i with
  | .tick _ => none
  | .pwmclk => none
  | .now => some ("-> (" ++ decimal (unpackInstant r).sec.toNat ++ ", " ++ decimal (unpackInstant r).usec.toNat ++ ")")
  | .elapsed _ _ => some ("-> " ++ decimal r.toNat)
  | .isDown => some ("-> " ++ decimal r.toNat)
  | .setBrightness _ => none
  | .getBrightness => some ("-> " ++ decimal r.toNat)

end Sys2Proof.Machine
end

