-- ==== Sys2Proof/Safety.lean ====
section
/-! DEFINITION. The terms in which claims about the block are made: its invariants (spec R31), total time (R95), the
`ELAPSED` window (R97), and what the surroundings of an operation are. -/

namespace Sys2Proof.Machine

/-- The invariants I1 to I6 of R31. -/
structure Block.Inv (p : Params) (b : Block) : Prop where
  /-- (I1) `tb_usec < 1_000_000`. -/
  usec_lt : b.tbUsec.toNat < usecPerSec
  /-- (I2) `db_cnt < T`. -/
  cnt_lt : b.dbCnt.toNat < p.threshold
  /-- (I3) `pwm_ovf_en == pwm_cmp_en`. -/
  enables_eq : b.pwmOvfEn = b.pwmCmpEn
  /-- (I4) `pwm_ovf_en == 1` exactly when `br_level` is neither 0 nor 255. -/
  armed_iff : b.pwmOvfEn = true ↔ b.brLevel ≠ levelOff ∧ b.brLevel ≠ levelFull
  /-- (I5) if `pwm_cmp_en == 1` then `pwm_ocr == br_level` and `1 <= pwm_ocr <= 254`. -/
  compare_eq : b.pwmCmpEn = true → b.pwmOcr = b.brLevel ∧ 1 ≤ b.pwmOcr.toNat ∧ b.pwmOcr.toNat ≤ 254
  /-- (I6) if `br_level == 0` then `lamp == 0`. -/
  off_dark : b.brLevel = levelOff → b.lamp = false
  /-- (I6) if `br_level == 255` then `lamp == 1`. -/
  full_lit : b.brLevel = levelFull → b.lamp = true

/-- The invariants of the block inside a state, for the state's own parameters (R31). -/
def State.Inv (s : State) : Prop := s.block.Inv s.params

/-- `total(s) = s.tb_sec * 1_000_000 + s.tb_usec` (R95). -/
def Block.total (b : Block) : Nat := b.tbSec.toNat * usecPerSec + b.tbUsec.toNat

/-- How many `TICK` a list of operations holds (R96). -/
def tickCount : List Instr → Nat
  | [] => 0
  | i :: is => (if i.operation = .tick then 1 else 0) + tickCount is

/-- How many `PWMCLK` a list of operations holds (R131). -/
def pwmclkCount : List Instr → Nat
  | [] => 0
  | i :: is => (if i.operation = .pwmclk then 1 else 0) + pwmclkCount is

/-- No `SET_BRIGHTNESS` in the list: the level is held (R131). -/
def LevelHeld (ops : List Instr) : Prop := ∀ i ∈ ops, i.operation ≠ .setBrightness

/-- Every `TICK` in the list carries the sample `raw` (R112). -/
def AllTicksCarry (raw : Bool) (ops : List Instr) : Prop := ∀ r, Instr.tick r ∈ ops → r = raw

/-- The window of `ELAPSED` (R97): fewer than 2^32 microseconds of Time Base time in `n` ticks. -/
def InWindow (p : Params) (n : Nat) : Prop := n * p.period < 2 ^ 32

/-- The PWM period in counts (R11). -/
def pwmPeriod : Nat := pwmTop.toNat + 1

/-- A word is illegal on a port (R72): (a) its opcode is reserved, or (b) its opcode is defined but a "must be 0" bit of
its format is 1, or (c) it is presented on the wrong port. -/
def IllegalWord (p : Port) (w : OpWord) : Prop :=
  (∀ o : Operation, o.opcode ≠ opcodeOf w) ∨
  (∃ o : Operation, o.opcode = opcodeOf w ∧ argOf w &&& o.format.mustBeZero ≠ 0#64) ∨
  (∃ o : Operation, o.opcode = opcodeOf w ∧ o.port ≠ p)

/-- What an operation leaves alone outside the block: the parameters, the schedule and the count of ties. -/
def SameSurroundings (s t : State) : Prop := t.params = s.params ∧ t.inputs = s.inputs ∧ t.ties = s.ties

/-- The four fields of TB and DB stand (R35). -/
def SameTimeAndButton (b c : Block) : Prop :=
  c.tbSec = b.tbSec ∧ c.tbUsec = b.tbUsec ∧ c.dbCnt = b.dbCnt ∧ c.dbDown = b.dbDown

/-- The four fields that only `SET_BRIGHTNESS` writes stand (R58). -/
def SameLevelSettings (b c : Block) : Prop :=
  c.brLevel = b.brLevel ∧ c.pwmOcr = b.pwmOcr ∧ c.pwmOvfEn = b.pwmOvfEn ∧ c.pwmCmpEn = b.pwmCmpEn

/-- What the CMD port can read of two blocks is the same (R158: `tb_sec`, `tb_usec`, `db_down`, `br_level`). -/
def SameReadable (b c : Block) : Prop :=
  c.tbSec = b.tbSec ∧ c.tbUsec = b.tbUsec ∧ c.dbDown = b.dbDown ∧ c.brLevel = b.brLevel

/-- The sample an operation carries, if it is a `TICK`. -/
def tickSample : Instr → Option Bool
  | .tick raw => some raw
  | .pwmclk => none
  | .now => none
  | .elapsed _ _ => none
  | .isDown => none
  | .setBrightness _ => none
  | .getBrightness => none

/-- The samples alternate, the first one being `raw`. -/
def alternates : Bool → List Bool → Bool
  | _, [] => true
  | raw, r :: rs => r == raw && alternates (!raw) rs

/-- The samples of the `TICK` of a list alternate, the first one being `raw`, whatever stands between them
(R113 (c)). -/
def TicksAlternate (raw : Bool) (ops : List Instr) : Prop := alternates raw (ops.filterMap tickSample) = true

/-- The pin after a run of operations (R30, R131). -/
def lampAfter : Result → Bool
  | .next t => t.block.lamp
  | .fault _ => false
  | .refused _ => false

/-- Two operations commute in a state (R59): performed in either order they leave the same block, and each returns the
same response. -/
def CommuteAt (i j : Instr) (s : State) : Prop :=
  ∃ a b c d, exec i s = .next a ∧ exec j a = .next b ∧ exec j s = .next c ∧ exec i c = .next d ∧
    b.block = d.block ∧ a.out.rsp = d.out.rsp ∧ b.out.rsp = c.out.rsp

/-- A run of `k` steps is safe when no step of it stops (R189). -/
def SafeRun (k : Nat) (s : State) : Prop := ∃ t, Host.Core.run Sys2Proof.core k s = .next t

end Sys2Proof.Machine
end

