-- ==== Sys2Proof/Certificates/Slice0/Obligations.lean ====
section
/-! DEFINITION. The statements for the provers, from the numbered rules of the spec. Numbers are written out here as the
rules write them, so that no statement rests on a constant of the model. Around the block stand the model's own fields:
`inputs`, the presentations (log 2), `ties` (log 3), `out`, the port outputs of the step (R66, R72; log 4), and `params`
(log 1). Where a statement says of a step that performs no word that `out` is `⟨none, false, false⟩`, the absent response
is the model's (log 4) and the two flags are R72's. -/

open Sys2Proof Sys2Proof.Machine

/-! ### Encoding and decoding -/

/-- Decoding the encoding of any operation, on its own port, gives the operation back, whatever its operands
(R65, R68 to R70, R74). -/
def Obligations.DecodeInvertsEncode : Prop :=
  ∀ i : Instr, decode i.port (encode i) = .operation i

/-- A word that decodes to an operation is that operation's encoding, on that operation's port: no bit is dropped
(R70, R71, R72). -/
def Obligations.LegalWordIsItsEncoding : Prop :=
  ∀ (p : Port) (w : OpWord) (i : Instr), decode p w = .operation i → encode i = w ∧ i.port = p

/-- R74: a word matched by a row on this port is that row's operation with the operands of R69; a word no row matches
is illegal; at most one row matches; the seven rows are those R74 lists. -/
def Obligations.DecoderFollowsOpcodeTable : Prop :=
  ∀ (p : Port) (w : OpWord),
    (∀ r ∈ opcodeTable, r.port = p → w &&& r.mask = r.pattern → decode p w = .operation (assemble r.operation (argOf w))) ∧
    ((∀ r ∈ opcodeTable, ¬ (r.port = p ∧ w &&& r.mask = r.pattern)) → ∃ why, decode p w = .illegal why) ∧
    (∀ r ∈ opcodeTable, ∀ q ∈ opcodeTable, r.port = p → q.port = p → w &&& r.mask = r.pattern →
      w &&& q.mask = q.pattern → r = q) ∧
    opcodeTable =
      [ ⟨.tick, .ev, 0x010000000000000000#72, 0xFFFFFFFFFFFFFFFFFE#72⟩,
        ⟨.pwmclk, .ev, 0x020000000000000000#72, 0xFFFFFFFFFFFFFFFFFF#72⟩,
        ⟨.now, .cmd, 0x100000000000000000#72, 0xFFFFFFFFFFFFFFFFFF#72⟩,
        ⟨.elapsed, .cmd, 0x110000000000000000#72, 0xFF0000000000000000#72⟩,
        ⟨.isDown, .cmd, 0x120000000000000000#72, 0xFFFFFFFFFFFFFFFFFF#72⟩,
        ⟨.setBrightness, .cmd, 0x130000000000000000#72, 0xFFFFFFFFFFFFFFFF00#72⟩,
        ⟨.getBrightness, .cmd, 0x140000000000000000#72, 0xFFFFFFFFFFFFFFFFFF#72⟩ ]

/-- Words EN-1, EN-2, EN-3, EN-4, EN-5, EN-8, EN-10 and EN-12 of the spec decode to what the spec says. -/
def Obligations.SpecWordsDecode : Prop :=
  decode .ev 0x010000000000000000#72 = .operation (.tick false) ∧
  decode .ev 0x010000000000000001#72 = .operation (.tick true) ∧
  decode .ev 0x020000000000000000#72 = .operation .pwmclk ∧
  decode .cmd 0x100000000000000000#72 = .operation .now ∧
  decode .cmd 0x11000000010007A120#72 = .operation (.elapsed 1#32 500000#32) ∧
  decode .cmd 0x120000000000000000#72 = .operation .isDown ∧
  decode .cmd 0x130000000000000080#72 = .operation (.setBrightness 128#8) ∧
  decode .cmd 0x140000000000000000#72 = .operation .getBrightness

/-- The word of each operation as a number: opcode times 2^64 plus the argument of its format (R65, R68, R69, R75). -/
def Obligations.EncodedWordAsNumber : Prop :=
  (∀ raw, (encode (.tick raw)).toNat = 0x01 * 2 ^ 64 + raw.toNat) ∧
  (encode .pwmclk).toNat = 0x02 * 2 ^ 64 ∧
  (encode .now).toNat = 0x10 * 2 ^ 64 ∧
  (∀ sec usec, (encode (.elapsed sec usec)).toNat = 0x11 * 2 ^ 64 + sec.toNat * 2 ^ 32 + usec.toNat) ∧
  (encode .isDown).toNat = 0x12 * 2 ^ 64 ∧
  (∀ level, (encode (.setBrightness level)).toNat = 0x13 * 2 ^ 64 + level.toNat) ∧
  (encode .getBrightness).toNat = 0x14 * 2 ^ 64

/-- The two events are legal on EV only, the five commands on CMD only (R71), and each agent's port is that of the
operations it issues (R7). -/
def Obligations.OperationIsIllegalOnOtherPort : Prop :=
  (∀ (i : Instr) (p : Port), p ≠ i.port → ∃ why, decode p (encode i) = .illegal why) ∧
  (∀ i : Instr, i.port = .ev ↔ (∃ raw, i = .tick raw) ∨ i = .pwmclk) ∧
  (∀ i : Instr, i.agent.port = i.port)

/-! ### One step -/

/-- A word presented alone that decodes to an operation: the step is that operation's `exec`, with the presentation
consumed (R55, R57, R67). -/
def Obligations.StepRunsDecodedOperation : Prop :=
  ∀ (p : Port) (w : OpWord) (i : Instr) (s : State) (rest : List Pins),
    s.inputs = presentWord p w :: rest → decode p w = .operation i → step s = exec i { s with inputs := rest }

/-- An illegal word changes no field of the state, returns 0 and drives `cmd_ill` on CMD, drives `ev_ill` on EV; in
every other step both flags are 0 (R72). That `rsp` is absent after an illegal word on EV is the model's, read from R66
and R72 (log 4, DEDUCED). -/
def Obligations.IllegalWordIsInert : Prop :=
  (∀ (p : Port) (w : OpWord) (s : State) (rest : List Pins), IllegalWord p w → s.inputs = presentWord p w :: rest →
    step s = .next { s with
      inputs := rest
      out := match p with
        | .cmd => ⟨some 0#64, true, false⟩
        | .ev => ⟨none, false, true⟩ }) ∧
  (∀ s t : State, step s = .next t → t.out.cmdIll = true →
    ∃ pins rest w, s.inputs = pins :: rest ∧ pins.reset = false ∧ pins.cmd = some w ∧ IllegalWord .cmd w) ∧
  (∀ s t : State, step s = .next t → t.out.evIll = true →
    ∃ pins rest w, s.inputs = pins :: rest ∧ pins.reset = false ∧ pins.ev = some w ∧ IllegalWord .ev w)

/-- A presentation with neither RESET nor a valid word, or no presentation at all, leaves the block alone (R67: a port
with `valid = 0` "presents nothing and causes no step"; that the model takes an idle step there is its choice, log 2). -/
def Obligations.StepWithoutWordIsIdle : Prop :=
  (∀ s : State, s.inputs = [] → step s = .next { s with out := ⟨none, false, false⟩ }) ∧
  (∀ (s : State) (rest : List Pins), s.inputs = ⟨false, none, none⟩ :: rest →
    step s = .next { s with inputs := rest, out := ⟨none, false, false⟩ })

/-- Two words presented together: one of the two is performed, whichever, and the other stands presented next
(R67, R154; the order is the free value of log 3). -/
def Obligations.SimultaneousWordsAreSerialised : Prop :=
  ∀ (s : State) (ev cmd : OpWord) (rest : List Pins), s.inputs = ⟨false, some ev, some cmd⟩ :: rest →
    step s = perform .ev ev { s with inputs := ⟨false, none, some cmd⟩ :: rest, ties := s.ties + 1 } ∨
    step s = perform .cmd cmd { s with inputs := ⟨false, some ev, none⟩ :: rest, ties := s.ties + 1 }

/-- After RESET every field is zero, whatever the state before (R39); a word presented with RESET is discarded (R175).
That the fields around the block keep `params` and `ties`, lose the one presentation and show quiet outputs is the
model's (log 4, DESIGN CHOICE; log 11, DEDUCED). -/
def Obligations.ResetEventClearsBlock : Prop :=
  ∀ (s : State) (pins : Pins) (rest : List Pins), s.inputs = pins :: rest → pins.reset = true →
    step s = .next { s with
      block := {
        tbSec := 0#32
        tbUsec := 0#32
        dbCnt := 0#8
        dbDown := false
        brLevel := 0#8
        pwmOcr := 0#8
        pwmOvfEn := false
        pwmCmpEn := false
        pwmCnt := 0#8
        lamp := false }
      inputs := rest
      out := ⟨none, false, false⟩ }

/-- R176: the block of the reset state is all zeros. -/
def Obligations.ResetStateIsAllZero : Prop :=
  State.reset.block = {
    tbSec := 0#32
    tbUsec := 0#32
    dbCnt := 0#8
    dbDown := false
    brLevel := 0#8
    pwmOcr := 0#8
    pwmOvfEn := false
    pwmCmpEn := false
    pwmCnt := 0#8
    lamp := false }

/-- After reset and before anything else, `NOW`, `IS_DOWN` and `GET_BRIGHTNESS` all answer zero (R178). -/
def Obligations.ReadsAfterResetAnswerZero : Prop :=
  ∀ i : Instr, i = .now ∨ i = .isDown ∨ i = .getBrightness →
    ∃ t, exec i State.reset = .next t ∧ t.out.rsp = some 0#64

/-- A word presented alone is accepted and performed in one step (R67): a legal word's operation, and for an illegal
word nothing in the block (R72). A response is returned exactly on CMD (R66); that an illegal word on EV returns none
either is the model's (log 4, DEDUCED). -/
def Obligations.WordIsPerformedInOneStep : Prop :=
  ∀ (p : Port) (w : OpWord) (s : State) (rest : List Pins), s.inputs = presentWord p w :: rest →
    ∃ t, step s = .next t ∧ perform p w { s with inputs := rest } = .next t ∧
      (∀ i, decode p w = .operation i → exec i { s with inputs := rest } = .next t) ∧
      (∀ why, decode p w = .illegal why → t.block = s.block) ∧
      t.inputs = rest ∧ (t.out.rsp.isSome = true ↔ p = .cmd)

/-! ### Time Base -/

/-- R91: the Time Base half of `TICK`. -/
def Obligations.TickAdvancesTimeBase : Prop :=
  ∀ (raw : Bool) (s : State), ∃ t, exec (.tick raw) s = .next t ∧
    (1000000 ≤ s.block.tbUsec.toNat + s.params.period →
      t.block.tbUsec.toNat = s.block.tbUsec.toNat + s.params.period - 1000000 ∧
      t.block.tbSec.toNat = (s.block.tbSec.toNat + 1) % 2 ^ 32) ∧
    (s.block.tbUsec.toNat + s.params.period < 1000000 →
      t.block.tbUsec.toNat = s.block.tbUsec.toNat + s.params.period ∧ t.block.tbSec = s.block.tbSec)

/-- R110: the debounce half of `TICK`. -/
def Obligations.TickSamplesButton : Prop :=
  ∀ (raw : Bool) (s : State), ∃ t, exec (.tick raw) s = .next t ∧
    (raw = s.block.dbDown → t.block.dbCnt = 0#8 ∧ t.block.dbDown = s.block.dbDown) ∧
    (raw ≠ s.block.dbDown → s.params.threshold ≤ s.block.dbCnt.toNat + 1 →
      t.block.dbCnt = 0#8 ∧ t.block.dbDown = raw) ∧
    (raw ≠ s.block.dbDown → s.block.dbCnt.toNat + 1 < s.params.threshold →
      t.block.dbCnt.toNat = s.block.dbCnt.toNat + 1 ∧ t.block.dbDown = s.block.dbDown)

/-- The frame of `TICK` (R35, R90): it writes the Time Base and the filter, returns nothing, and writes nothing else. -/
def Obligations.TickWritesOnlyTimeAndButton : Prop :=
  ∀ (raw : Bool) (s : State), ∃ t, exec (.tick raw) s = .next t ∧
    t = { s with
      block := { s.block with
        tbSec := t.block.tbSec, tbUsec := t.block.tbUsec, dbCnt := t.block.dbCnt, dbDown := t.block.dbDown }
      out := ⟨none, false, false⟩ }

/-- R92: `NOW` returns `tb_sec ++ tb_usec` and writes no field; under the invariants the returned `usec` is below
1_000_000. -/
def Obligations.NowReturnsSnapshot : Prop :=
  ∀ s : State, exec .now s = .next { s with out := ⟨some (s.block.tbSec ++ s.block.tbUsec), false, false⟩ } ∧
    (s.Inv → (s.block.tbSec ++ s.block.tbUsec).toNat % 2 ^ 32 < 1000000)

/-- R93: the response of `ELAPSED` is the difference in microseconds, computed over the integers and reduced modulo
2^32; it writes no field. -/
def Obligations.ElapsedIsModularDifference : Prop :=
  ∀ (sec usec : BitVec 32) (s : State), ∃ r : BitVec 64,
    exec (.elapsed sec usec) s = .next { s with out := ⟨some r, false, false⟩ } ∧
    (r.toNat : Int) = (((s.block.tbSec.toNat : Int) - sec.toNat) * 1000000 +
      ((s.block.tbUsec.toNat : Int) - usec.toNat)) % 2 ^ 32

/-- R95: total time after any operations among which there are `n` ticks. -/
def Obligations.TotalTimeCountsTicks : Prop :=
  ∀ (ops : List Instr) (s : State), s.block.tbUsec.toNat < 1000000 →
    ∃ t, execAll ops s = .next t ∧
      t.block.tbSec.toNat = (s.block.total + tickCount ops * s.params.period) / 1000000 % 2 ^ 32 ∧
      t.block.tbUsec.toNat = (s.block.total + tickCount ops * s.params.period) % 1000000 ∧
      (s.block.total + tickCount ops * s.params.period < 2 ^ 32 * 1000000 →
        t.block.total = s.block.total + tickCount ops * s.params.period)

/-- R96: (a) `ELAPSED` of the pair a `NOW` returned answers `N * P` modulo 2^32 after `N` ticks, whatever else happens
in between; (b) until `tb_sec` wraps, every tick strictly increases the pair. -/
def Obligations.ElapsedSinceNowCountsTicks : Prop :=
  (∀ (ops : List Instr) (s : State), ∃ s0 r0 t u r,
    exec .now s = .next s0 ∧ s0.out.rsp = some r0 ∧ execAll ops s0 = .next t ∧
    exec (elapsedSinceResponse r0) t = .next u ∧ u.out.rsp = some r ∧
    r.toNat = tickCount ops * s.params.period % 2 ^ 32) ∧
  (∀ (raw : Bool) (s : State), s.block.tbUsec.toNat < 1000000 →
    s.block.total + s.params.period < 2 ^ 32 * 1000000 →
    ∃ t, exec (.tick raw) s = .next t ∧
      (s.block.tbSec.toNat < t.block.tbSec.toNat ∨
        s.block.tbSec = t.block.tbSec ∧ s.block.tbUsec.toNat < t.block.tbUsec.toNat))

/-- R97: the response of `ELAPSED` is the true elapsed time exactly inside its window, and that time modulo 2^32
always. -/
def Obligations.ElapsedIsTrueExactlyInWindow : Prop :=
  ∀ (ops : List Instr) (s : State), ∃ t u r, execAll ops s = .next t ∧
    exec (.elapsed s.block.tbSec s.block.tbUsec) t = .next u ∧ u.out.rsp = some r ∧
    r.toNat = tickCount ops * s.params.period % 2 ^ 32 ∧
    (r.toNat = tickCount ops * s.params.period ↔ InWindow s.params (tickCount ops))

/-! ### Debounce filter -/

/-- R111: `IS_DOWN` returns the published state in bit 0 and writes no field. -/
def Obligations.IsDownReturnsPublishedState : Prop :=
  ∀ s : State, exec .isDown s =
    .next { s with out := ⟨some (if s.block.dbDown then 1#64 else 0#64), false, false⟩ }

/-- R112: (a) a glitch of fewer than `T` ticks never flips, and one agreeing tick clears the count; (b), (c) from a count
`c`, disagreeing ticks flip at the `(T - c)`-th and never again. -/
def Obligations.DebounceStability : Prop :=
  (∀ (ops : List Instr) (s : State), s.block.dbCnt = 0#8 → AllTicksCarry (!s.block.dbDown) ops →
    tickCount ops + 1 ≤ s.params.threshold →
    ∃ t u, execAll ops s = .next t ∧ t.block.dbDown = s.block.dbDown ∧
      exec (.tick s.block.dbDown) t = .next u ∧ u.block.dbDown = s.block.dbDown ∧ u.block.dbCnt = 0#8) ∧
  (∀ (ops : List Instr) (s : State), s.block.dbCnt.toNat < s.params.threshold → AllTicksCarry (!s.block.dbDown) ops →
    ∃ t, execAll ops s = .next t ∧
      (s.block.dbCnt.toNat + tickCount ops < s.params.threshold →
        t.block.dbDown = s.block.dbDown ∧ t.block.dbCnt.toNat = s.block.dbCnt.toNat + tickCount ops) ∧
      (s.params.threshold ≤ s.block.dbCnt.toNat + tickCount ops →
        t.block.dbDown = !s.block.dbDown ∧ t.block.dbCnt = 0#8))

/-- After a flip, no sequence of operations with fewer than `T` ticks flips again, whatever the samples (R113 (a)). -/
def Obligations.FlipsAreThresholdTicksApart : Prop :=
  ∀ (raw : Bool) (s : State), ∃ t, exec (.tick raw) s = .next t ∧
    (t.block.dbDown ≠ s.block.dbDown → ∀ ops : List Instr, tickCount ops < s.params.threshold →
      ∃ u, execAll ops t = .next u ∧ u.block.dbDown = t.block.dbDown)

/-- With `T >= 2`, an input that alternates every tick never flips the filter (R113 (c)), whatever operations stand
between the ticks. The first sample agrees with the published state, or the count stands below `T - 1`: from a count of
`T - 1` a first sample that disagrees flips (R110). -/
def Obligations.AlternatingInputNeverFlips : Prop :=
  ∀ (raw : Bool) (ops : List Instr) (s : State), 2 ≤ s.params.threshold → TicksAlternate raw ops →
    raw = s.block.dbDown ∨ s.block.dbCnt.toNat + 1 < s.params.threshold →
    ∃ t, execAll ops s = .next t ∧ t.block.dbDown = s.block.dbDown

/-- A machine that is given no T has `T = 30`, and one that is given a T has that T (R9); so without a given T a
sustained change of the input flips a settled filter on the 30th tick, not on the 29th (R112). How a T is given is the
model's choice (log 1). -/
def Obligations.DefaultThresholdIsThirty : Prop :=
  (∀ (index : Fin 1000000) (t : Fin 255), (Config.paramsOf index (some t)).threshold = t.val + 1) ∧
  (∀ (index : Fin 1000000) (ops : List Instr) (s : State), s.params = Config.paramsOf index none →
    s.block.dbCnt = 0#8 → AllTicksCarry (!s.block.dbDown) ops →
    s.params.threshold = 30 ∧ ∃ t, execAll ops s = .next t ∧
      (tickCount ops < 30 → t.block.dbDown = s.block.dbDown ∧ t.block.dbCnt.toNat = tickCount ops) ∧
      (30 ≤ tickCount ops → t.block.dbDown = !s.block.dbDown ∧ t.block.dbCnt = 0#8))

/-! ### Brightness and PWM -/

/-- R125: `SET_BRIGHTNESS`, case by case, with everything it leaves alone. -/
def Obligations.SetBrightnessConfiguresPwm : Prop :=
  ∀ (level : BitVec 8) (s : State),
    (level = 0#8 → exec (.setBrightness level) s = .next { s with
      block := { s.block with brLevel := level, lamp := false, pwmOvfEn := false, pwmCmpEn := false }
      out := ⟨some 0#64, false, false⟩ }) ∧
    (level = 255#8 → exec (.setBrightness level) s = .next { s with
      block := { s.block with brLevel := level, lamp := true, pwmOvfEn := false, pwmCmpEn := false }
      out := ⟨some 0#64, false, false⟩ }) ∧
    (level ≠ 0#8 → level ≠ 255#8 → exec (.setBrightness level) s = .next { s with
      block := { s.block with brLevel := level, pwmOcr := level, pwmOvfEn := true, pwmCmpEn := true }
      out := ⟨some 0#64, false, false⟩ })

/-- R132: levels 0 and 255 disarm both events, every other level arms both, whatever the state before. -/
def Obligations.BrightnessBoundary : Prop :=
  ∀ (level : BitVec 8) (s : State), ∃ t, exec (.setBrightness level) s = .next t ∧
    t.block.pwmOvfEn = t.block.pwmCmpEn ∧
    (t.block.pwmOvfEn = true ↔ 1 ≤ level.toNat ∧ level.toNat ≤ 254)

/-- R126: `GET_BRIGHTNESS` returns the level in bits 7:0 and writes no field. -/
def Obligations.GetBrightnessReturnsLevel : Prop :=
  ∀ s : State, exec .getBrightness s =
    .next { s with out := ⟨some (BitVec.ofNat 64 s.block.brLevel.toNat), false, false⟩ }

/-- `GET_BRIGHTNESS` returns the last value passed to `SET_BRIGHTNESS`, whatever other operations came since
(R25, R126). -/
def Obligations.GetBrightnessReturnsLastLevelSet : Prop :=
  ∀ (level : BitVec 8) (ops : List Instr) (s : State), LevelHeld ops →
    ∃ t u v r, exec (.setBrightness level) s = .next t ∧ execAll ops t = .next u ∧
      exec .getBrightness u = .next v ∧ v.out.rsp = some r ∧ r.toNat = level.toNat

/-- R127 to R130: one count of the PWM timer, with everything it leaves alone; the overflow is applied first, the
compare match second. -/
def Obligations.PwmclkCountsAndDrivesPin : Prop :=
  ∀ s : State, ∃ t, exec .pwmclk s = .next t ∧
    t = { s with
      block := { s.block with pwmCnt := t.block.pwmCnt, lamp := t.block.lamp }
      out := ⟨none, false, false⟩ } ∧
    t.block.pwmCnt.toNat = (s.block.pwmCnt.toNat + 1) % 256 ∧
    (t.block.pwmCnt = s.block.pwmOcr → s.block.pwmCmpEn = true → t.block.lamp = false) ∧
    (¬ (t.block.pwmCnt = s.block.pwmOcr ∧ s.block.pwmCmpEn = true) → t.block.pwmCnt = 0#8 →
      s.block.pwmOvfEn = true → t.block.lamp = true) ∧
    (¬ (t.block.pwmCnt = s.block.pwmOcr ∧ s.block.pwmCmpEn = true) →
      ¬ (t.block.pwmCnt = 0#8 ∧ s.block.pwmOvfEn = true) → t.block.lamp = s.block.lamp)

/-- While both events are disarmed no operation but `SET_BRIGHTNESS` moves the pin, the count runs on, and arming
afterwards replays nothing (R37 (a), R125 (f), R153). -/
def Obligations.DisarmedEventsAreLost : Prop :=
  ∀ (level : BitVec 8) (ops : List Instr) (s : State), s.block.pwmOvfEn = false → s.block.pwmCmpEn = false →
    LevelHeld ops →
    ∃ t u, execAll ops s = .next t ∧ t.block.lamp = s.block.lamp ∧
      t.block.pwmCnt.toNat = (s.block.pwmCnt.toNat + pwmclkCount ops) % 256 ∧
      exec (.setBrightness level) t = .next u ∧
      (1 ≤ level.toNat → level.toNat ≤ 254 → u.block.lamp = s.block.lamp)

/-- R131: from an armed overflow on, with the level held, the pin is high exactly after the counts below `L`, and `L`
counts in every 256. -/
def Obligations.DutyCycleIsLevelOf256 : Prop :=
  ∀ (s : State) (level : Nat), 1 ≤ level → level ≤ 254 → s.block.pwmOcr.toNat = level →
    s.block.pwmOvfEn = true → s.block.pwmCmpEn = true → s.block.pwmCnt = 255#8 →
    (∀ (ops : List Instr) (n : Nat), LevelHeld ops → pwmclkCount ops = n + 1 →
      ∃ t, execAll ops s = .next t ∧ t.block.pwmCnt.toNat = n % 256 ∧ (t.block.lamp = true ↔ n % 256 < level)) ∧
    (∀ k : Nat, ((List.range 256).filter fun j =>
      lampAfter (execAll (List.replicate (k + j + 1) Instr.pwmclk) s)).length = level)

/-- R133: what a change of level does to the pin, `c` being the count at the `SET_BRIGHTNESS` and `n` the number of
`PWMCLK` since. -/
def Obligations.PinAfterLevelChange : Prop :=
  ∀ (level : BitVec 8) (ops : List Instr) (s : State), LevelHeld ops →
    ∃ t u, exec (.setBrightness level) s = .next t ∧ execAll ops t = .next u ∧
      (level = 0#8 → u.block.lamp = false) ∧
      (level = 255#8 → u.block.lamp = true) ∧
      (1 ≤ level.toNat → level.toNat ≤ 254 → s.block.lamp = false →
        (pwmclkCount ops < 256 - s.block.pwmCnt.toNat → u.block.lamp = false) ∧
        (256 - s.block.pwmCnt.toNat ≤ pwmclkCount ops →
          (u.block.lamp = true ↔ (s.block.pwmCnt.toNat + pwmclkCount ops) % 256 < level.toNat))) ∧
      (1 ≤ level.toNat → level.toNat ≤ 254 → s.block.lamp = true → s.block.pwmCnt.toNat < level.toNat →
        (pwmclkCount ops < level.toNat - s.block.pwmCnt.toNat → u.block.lamp = true) ∧
        (level.toNat - s.block.pwmCnt.toNat ≤ pwmclkCount ops →
          (u.block.lamp = true ↔ (s.block.pwmCnt.toNat + pwmclkCount ops) % 256 < level.toNat))) ∧
      (1 ≤ level.toNat → level.toNat ≤ 254 → s.block.lamp = true → level.toNat ≤ s.block.pwmCnt.toNat →
        (pwmclkCount ops < 256 - s.block.pwmCnt.toNat + level.toNat → u.block.lamp = true) ∧
        (256 - s.block.pwmCnt.toNat + level.toNat ≤ pwmclkCount ops →
          (u.block.lamp = true ↔ (s.block.pwmCnt.toNat + pwmclkCount ops) % 256 < level.toNat)))

/-- R177: the reset state of the brightness unit is what `SET_BRIGHTNESS 0` leaves when the compare register and the
count are 0, so the first `SET_BRIGHTNESS 0` after reset changes nothing in the block. -/
def Obligations.SetZeroLeavesResetBrightness : Prop :=
  (∀ s : State, s.block.pwmOcr = 0#8 → s.block.pwmCnt = 0#8 → ∃ t, exec (.setBrightness 0#8) s = .next t ∧
    t.block = { Block.reset with
      tbSec := s.block.tbSec, tbUsec := s.block.tbUsec, dbCnt := s.block.dbCnt, dbDown := s.block.dbDown }) ∧
  (∃ t, exec (.setBrightness 0#8) State.reset = .next t ∧ t.block = State.reset.block)

/-! ### Ordering, ownership, the whole machine -/

/-- R59: which pairs of operations commute, and which do not. -/
def Obligations.CommutingOperations : Prop :=
  (∀ (raw : Bool) (s : State), execAll [.tick raw, .pwmclk] s = execAll [.pwmclk, .tick raw] s ∧
    (∀ level, CommuteAt (.tick raw) (.setBrightness level) s) ∧ CommuteAt (.tick raw) .getBrightness s) ∧
  (∀ s : State, CommuteAt .pwmclk .now s ∧ (∀ sec usec, CommuteAt .pwmclk (.elapsed sec usec) s) ∧
    CommuteAt .pwmclk .isDown s ∧ CommuteAt .pwmclk .getBrightness s) ∧
  (∀ (raw : Bool) (s : State), ¬ CommuteAt (.tick raw) .now s ∧
    ∀ sec usec, ¬ CommuteAt (.tick raw) (.elapsed sec usec) s) ∧
  (∃ raw s, ¬ CommuteAt (.tick raw) .isDown s) ∧
  (∃ level s, ¬ CommuteAt .pwmclk (.setBrightness level) s)

/-- R56: the reads write no field and may be repeated; `SET_BRIGHTNESS` is idempotent; `TICK` and `PWMCLK` are not. -/
def Obligations.ReadsHaveNoSideEffect : Prop :=
  (∀ (i : Instr) (s : State), i = .now ∨ (∃ sec usec, i = .elapsed sec usec) ∨ i = .isDown ∨ i = .getBrightness →
    ∃ r, exec i s = .next { s with out := ⟨some r, false, false⟩ }) ∧
  (∀ (i : Instr) (ops : List Instr) (s : State), i = .now ∨ (∃ sec usec, i = .elapsed sec usec) ∨ i = .isDown →
    tickCount ops = 0 → ∃ t u v, exec i s = .next t ∧ execAll ops t = .next u ∧ exec i u = .next v ∧
      v.out.rsp = t.out.rsp) ∧
  (∀ (ops : List Instr) (s : State), LevelHeld ops → ∃ t u v, exec .getBrightness s = .next t ∧
    execAll ops t = .next u ∧ exec .getBrightness u = .next v ∧ v.out.rsp = t.out.rsp) ∧
  (∀ (level : BitVec 8) (s : State), execAll [.setBrightness level, .setBrightness level] s =
    exec (.setBrightness level) s) ∧
  (∀ (raw : Bool) (s : State), execAll [.tick raw, .tick raw] s ≠ exec (.tick raw) s) ∧
  (∀ s : State, execAll [.pwmclk, .pwmclk] s ≠ exec .pwmclk s)

/-- Single writer per field (R35, R58): only `TICK` writes time and button, only `SET_BRIGHTNESS` writes the level
settings, only `PWMCLK` writes the count, and only `PWMCLK` and levels 0 and 255 write the pin. -/
def Obligations.SingleWriterPerField : Prop :=
  ∀ (i : Instr) (s : State), ∃ t, exec i s = .next t ∧ SameSurroundings s t ∧
    ((∀ raw, i ≠ .tick raw) → SameTimeAndButton s.block t.block) ∧
    ((∀ level, i ≠ .setBrightness level) → SameLevelSettings s.block t.block) ∧
    (i ≠ .pwmclk → t.block.pwmCnt = s.block.pwmCnt) ∧
    (i ≠ .pwmclk → i ≠ .setBrightness 0#8 → i ≠ .setBrightness 255#8 → t.block.lamp = s.block.lamp)

/-- What is presented on CMD cannot touch the time, the button or the PWM count, and what is presented on EV cannot
touch the level settings, whatever the words are (R71, R158). -/
def Obligations.PortRightsHoldForEveryWord : Prop :=
  ∀ (s : State) (pins : Pins) (rest : List Pins), s.inputs = pins :: rest → pins.reset = false →
    ∃ t, step s = .next t ∧
      (pins.ev = none → SameTimeAndButton s.block t.block ∧ t.block.pwmCnt = s.block.pwmCnt) ∧
      (pins.cmd = none → SameLevelSettings s.block t.block)

/-- The CMD port reads nothing but the time, the published button and the level: two blocks that agree on those answer
every CMD word alike, legal or not, and go on agreeing (R158, R162). -/
def Obligations.CommandsReadOnlyReadableFields : Prop :=
  ∀ (w : OpWord) (s t : State) (rest rest' : List Pins), s.inputs = presentWord .cmd w :: rest →
    t.inputs = presentWord .cmd w :: rest' → SameReadable s.block t.block →
    ∃ s' t', step s = .next s' ∧ step t = .next t' ∧ s'.out = t'.out ∧ SameReadable s'.block t'.block

/-- Every step keeps the invariants I1 to I6, from every state that has them, reachable or not (R31). -/
def Obligations.StepKeepsInvariant : Prop :=
  ∀ s t : State, s.Inv → step s = .next t → t.Inv

/-- The reset state has the invariants I1 to I6 (R31, R39). -/
def Obligations.ResetStateHasInvariant : Prop := State.reset.Inv

/-- R31: the invariants hold in every state reachable from reset, whatever is presented. -/
def Obligations.ReachableStatesHaveInvariant : Prop :=
  ∀ (p : Params) (inputs : List Pins) (k : Nat) (t : State),
    Host.Core.run Sys2Proof.core k { State.reset with params := p, inputs := inputs } = .next t → t.Inv

/-- The block never stops: every run of any length, from every state, goes on (R150, R189). -/
def Obligations.EveryRunProceeds : Prop := ∀ (k : Nat) (s : State), SafeRun k s

/-- P and T never change while the block runs (R8, R9). -/
def Obligations.ParametersNeverChange : Prop :=
  ∀ (k : Nat) (s t : State), Host.Core.run Sys2Proof.core k s = .next t → t.params = s.params
end

