-- ==== Sys2Proof/Laws/Decode.lean ====
section
/-! SUPPORT. How the fields of an operation word are put together and taken apart (spec R65, R66, R69). -/

namespace Sys2Proof.Machine

theorem wordOf_getLsbD (op : Opcode) (arg : Arg) (i : Nat) :
    (wordOf op arg).getLsbD i = if i < 64 then arg.getLsbD i else op.getLsbD (i - 64) :=
  (BitVec.getLsbD_append (x := op) (y := arg) (i := i)).trans (by cases h : decide (i < 64) <;> simp_all)

theorem opcodeOf_getLsbD (w : OpWord) (i : Nat) :
    (opcodeOf w).getLsbD i = (decide (i < 8) && w.getLsbD (64 + i)) := by
  simp [opcodeOf]

theorem argOf_getLsbD (w : OpWord) (i : Nat) : (argOf w).getLsbD i = (decide (i < 64) && w.getLsbD i) := by
  simp [argOf]

@[simp] theorem opcodeOf_wordOf (op : Opcode) (arg : Arg) : opcodeOf (wordOf op arg) = op := by
  refine BitVec.eq_of_getLsbD_eq fun i hi => ?_
  rw [opcodeOf_getLsbD, wordOf_getLsbD]
  simp [hi]

@[simp] theorem argOf_wordOf (op : Opcode) (arg : Arg) : argOf (wordOf op arg) = arg := by
  refine BitVec.eq_of_getLsbD_eq fun i hi => ?_
  rw [argOf_getLsbD, wordOf_getLsbD]
  simp [hi]

@[simp] theorem wordOf_opcodeOf_argOf (w : OpWord) : wordOf (opcodeOf w) (argOf w) = w := by
  refine BitVec.eq_of_getLsbD_eq fun i hi => ?_
  rw [wordOf_getLsbD, opcodeOf_getLsbD, argOf_getLsbD]
  split
  · simp_all
  · simp [show i - 64 < 8 by omega, show 64 + (i - 64) = i by omega]

theorem wordOf_and (op op' : Opcode) (arg arg' : Arg) :
    wordOf op arg &&& wordOf op' arg' = wordOf (op &&& op') (arg &&& arg') := by
  refine BitVec.eq_of_getLsbD_eq fun i _ => ?_
  rw [BitVec.getLsbD_and, wordOf_getLsbD, wordOf_getLsbD, wordOf_getLsbD]
  split <;> simp

theorem wordOf_inj {op op' : Opcode} {arg arg' : Arg} :
    wordOf op arg = wordOf op' arg' ↔ op = op' ∧ arg = arg' := by
  constructor
  · intro h
    exact ⟨by simpa using congrArg opcodeOf h, by simpa using congrArg argOf h⟩
  · rintro ⟨rfl, rfl⟩
    rfl

@[simp] theorem rawOf_zextBool (b : Bool) : rawOf (zextBool b) = b := by
  cases b <;> decide

@[simp] theorem levelOf_zextLevel (l : Level) : levelOf (zextLevel l) = l := by
  refine BitVec.eq_of_getLsbD_eq fun i hi => ?_
  simp [levelOf, zextLevel, hi, show i < 64 by omega]

theorem packInstant_getLsbD (t : Instant) (i : Nat) :
    (packInstant t).getLsbD i = if i < 32 then t.usec.getLsbD i else t.sec.getLsbD (i - 32) :=
  (BitVec.getLsbD_append (x := t.sec) (y := t.usec) (i := i)).trans (by cases h : decide (i < 32) <;> simp_all)

@[simp] theorem sinceSecOf_packInstant (t : Instant) : sinceSecOf (packInstant t) = t.sec := by
  refine BitVec.eq_of_getLsbD_eq fun i hi => ?_
  rw [sinceSecOf, BitVec.getLsbD_extractLsb', packInstant_getLsbD]
  simp [hi]

@[simp] theorem sinceUsecOf_packInstant (t : Instant) : sinceUsecOf (packInstant t) = t.usec := by
  refine BitVec.eq_of_getLsbD_eq fun i hi => ?_
  rw [sinceUsecOf, BitVec.getLsbD_extractLsb', packInstant_getLsbD]
  simp [hi]

@[simp] theorem unpackInstant_packInstant (t : Instant) : unpackInstant (packInstant t) = t := by
  simp [unpackInstant]

@[simp] theorem packInstant_unpackInstant (v : BitVec 64) : packInstant (unpackInstant v) = v := by
  refine BitVec.eq_of_getLsbD_eq fun i hi => ?_
  rw [packInstant_getLsbD, unpackInstant, sinceSecOf, sinceUsecOf, BitVec.getLsbD_extractLsb',
    BitVec.getLsbD_extractLsb']
  split
  · simp_all
  · simp [show i - 32 < 32 by omega, show 32 + (i - 32) = i by omega]

end Sys2Proof.Machine

namespace Sys2Proof

/-- The opcode map and its inverse agree (R70). -/
theorem operationOf_eq_some {op : Opcode} {o : Operation} : operationOf op = some o ↔ o.opcode = op := by
  constructor
  · intro h
    simp only [operationOf] at h
    repeat' split at h
    all_goals simp_all [Operation.opcode]
    all_goals subst h; rfl
  · rintro rfl
    cases o <;> rfl

/-- A reserved opcode is one that no operation has (R70). -/
theorem operationOf_eq_none {op : Opcode} : operationOf op = none ↔ ∀ o : Operation, o.opcode ≠ op := by
  constructor
  · intro h o ho
    rw [operationOf_eq_some.mpr ho] at h
    cases h
  · intro h
    cases ho : operationOf op with
    | none => rfl
    | some o => exact absurd (operationOf_eq_some.mp ho) (h o)

/-- What the decoder can do: a legal word is one whose opcode is an operation's, on that operation's port, with the
format's "must be 0" bits clear (R72, R74). -/
theorem decode_eq_operation {p : Port} {w : OpWord} {i : Instr} :
    decode p w = .operation i ↔
      ∃ o : Operation, o.opcode = Machine.opcodeOf w ∧ o.port = p ∧
        Machine.argOf w &&& o.format.mustBeZero = 0#64 ∧ i = assemble o (Machine.argOf w) := by
  constructor
  · intro h
    cases ho : operationOf (Machine.opcodeOf w) with
    | none => simp [decode, ho] at h
    | some o =>
      refine ⟨o, operationOf_eq_some.mp ho, ?_⟩
      simp only [decode, ho] at h
      split at h
      · cases h
      · split at h
        · cases h
        · simp_all
  · rintro ⟨o, ho, hp, hz, rfl⟩
    simp [decode, operationOf_eq_some.mpr ho, hp, hz]

end Sys2Proof
end

