-- ==== Sys2Proof/Laws/State.lean ====
section
/-! SUPPORT. One lemma per field per update of the model's state, and of the parameters, each true by
definition. -/

namespace Sys2Proof

@[simp] theorem Config.thresholdOf_some (index : Fin 255) : Config.thresholdOf (some index) = index.val + 1 := rfl
@[simp] theorem Config.thresholdOf_none : Config.thresholdOf none = 30 := rfl
@[simp] theorem Config.paramsOf_period (index : Fin 1000000) (given : Option (Fin 255)) :
    (Config.paramsOf index given).period = index.val + 1 := rfl
@[simp] theorem Config.paramsOf_threshold (index : Fin 1000000) (given : Option (Fin 255)) :
    (Config.paramsOf index given).threshold = Config.thresholdOf given := rfl

end Sys2Proof

namespace Sys2Proof.Machine

@[simp] theorem State.withBlock_block (s : State) (b : Block) : (s.withBlock b).block = b := rfl
@[simp] theorem State.withBlock_params (s : State) (b : Block) : (s.withBlock b).params = s.params := rfl
@[simp] theorem State.withBlock_inputs (s : State) (b : Block) : (s.withBlock b).inputs = s.inputs := rfl
@[simp] theorem State.withBlock_ties (s : State) (b : Block) : (s.withBlock b).ties = s.ties := rfl
@[simp] theorem State.withBlock_out (s : State) (b : Block) : (s.withBlock b).out = s.out := rfl

@[simp] theorem State.quiet_block (s : State) : (s.quiet).block = s.block := rfl
@[simp] theorem State.quiet_params (s : State) : (s.quiet).params = s.params := rfl
@[simp] theorem State.quiet_inputs (s : State) : (s.quiet).inputs = s.inputs := rfl
@[simp] theorem State.quiet_ties (s : State) : (s.quiet).ties = s.ties := rfl
@[simp] theorem State.quiet_out (s : State) : (s.quiet).out = Outputs.quiet := rfl

@[simp] theorem State.respond_block (s : State) (r : Response) : (s.respond r).block = s.block := rfl
@[simp] theorem State.respond_params (s : State) (r : Response) : (s.respond r).params = s.params := rfl
@[simp] theorem State.respond_inputs (s : State) (r : Response) : (s.respond r).inputs = s.inputs := rfl
@[simp] theorem State.respond_ties (s : State) (r : Response) : (s.respond r).ties = s.ties := rfl
@[simp] theorem State.respond_out (s : State) (r : Response) : (s.respond r).out = Outputs.response r := rfl

@[simp] theorem State.signalIllegal_block (s : State) (p : Port) : (s.signalIllegal p).block = s.block := rfl
@[simp] theorem State.signalIllegal_params (s : State) (p : Port) : (s.signalIllegal p).params = s.params := rfl
@[simp] theorem State.signalIllegal_inputs (s : State) (p : Port) : (s.signalIllegal p).inputs = s.inputs := rfl
@[simp] theorem State.signalIllegal_ties (s : State) (p : Port) : (s.signalIllegal p).ties = s.ties := rfl
@[simp] theorem State.signalIllegal_out (s : State) (p : Port) : (s.signalIllegal p).out = Outputs.illegal p := rfl

@[simp] theorem State.resetEvent_block (s : State) : (s.resetEvent).block = Block.reset := rfl
@[simp] theorem State.resetEvent_params (s : State) : (s.resetEvent).params = s.params := rfl
@[simp] theorem State.resetEvent_inputs (s : State) : (s.resetEvent).inputs = s.inputs := rfl
@[simp] theorem State.resetEvent_ties (s : State) : (s.resetEvent).ties = s.ties := rfl
@[simp] theorem State.resetEvent_out (s : State) : (s.resetEvent).out = Outputs.quiet := rfl

@[simp] theorem State.withInputs_block (s : State) (rest : List Pins) : (s.withInputs rest).block = s.block := rfl
@[simp] theorem State.withInputs_params (s : State) (rest : List Pins) : (s.withInputs rest).params = s.params := rfl
@[simp] theorem State.withInputs_inputs (s : State) (rest : List Pins) : (s.withInputs rest).inputs = rest := rfl
@[simp] theorem State.withInputs_ties (s : State) (rest : List Pins) : (s.withInputs rest).ties = s.ties := rfl
@[simp] theorem State.withInputs_out (s : State) (rest : List Pins) : (s.withInputs rest).out = s.out := rfl

@[simp] theorem Outputs.quiet_rsp : Outputs.quiet.rsp = none := rfl
@[simp] theorem Outputs.quiet_cmdIll : Outputs.quiet.cmdIll = false := rfl
@[simp] theorem Outputs.quiet_evIll : Outputs.quiet.evIll = false := rfl

@[simp] theorem Outputs.response_rsp (r : Response) : (Outputs.response r).rsp = some r := rfl
@[simp] theorem Outputs.response_cmdIll (r : Response) : (Outputs.response r).cmdIll = false := rfl
@[simp] theorem Outputs.response_evIll (r : Response) : (Outputs.response r).evIll = false := rfl

@[simp] theorem Outputs.illegal_cmd : Outputs.illegal .cmd = ⟨some 0#64, true, false⟩ := rfl
@[simp] theorem Outputs.illegal_ev : Outputs.illegal .ev = ⟨none, false, true⟩ := rfl

end Sys2Proof.Machine
end

