-- ==== Sys2Proof/Laws/Ops.lean ====
section
/-! SUPPORT. What each shared operation of Machine/Ops.lean can do, said once: the fields it writes and the fields it
leaves alone. -/

namespace Sys2Proof.Machine

/-! ### The Time Base half of TICK (R91) -/

theorem Block.tbTick_tbUsec_toNat (p : Params) (b : Block) :
    (b.tbTick p).tbUsec.toNat =
      if usecPerSec ≤ b.tbUsec.toNat + p.period then b.tbUsec.toNat + p.period - usecPerSec
      else b.tbUsec.toNat + p.period := by
  have hp := p.period_range
  have hb := b.tbUsec.isLt
  have hk : usecPerSec = 1000000 := rfl
  simp only [Block.tbTick]
  split <;> simp only [BitVec.toNat_ofNat] <;> omega

theorem Block.tbTick_tbSec (p : Params) (b : Block) :
    (b.tbTick p).tbSec = if usecPerSec ≤ b.tbUsec.toNat + p.period then b.tbSec + 1#32 else b.tbSec := by
  simp only [Block.tbTick]
  split <;> rfl

/-- The Time Base half writes only the Time Base. -/
theorem Block.tbTick_frame (p : Params) (b : Block) :
    b.tbTick p = { b with tbSec := (b.tbTick p).tbSec, tbUsec := (b.tbTick p).tbUsec } := by
  simp only [Block.tbTick]
  split <;> rfl

/-! ### The debounce half of TICK (R110) -/

theorem Block.dbSample_dbDown (p : Params) (raw : Bool) (b : Block) :
    (b.dbSample p raw).dbDown =
      if raw ≠ b.dbDown ∧ p.threshold ≤ b.dbCnt.toNat + 1 then raw else b.dbDown := by
  simp only [Block.dbSample]
  split
  · simp_all
  · split <;> simp_all

theorem Block.dbSample_dbCnt_toNat (p : Params) (raw : Bool) (b : Block) :
    (b.dbSample p raw).dbCnt.toNat =
      if raw = b.dbDown ∨ p.threshold ≤ b.dbCnt.toNat + 1 then 0 else b.dbCnt.toNat + 1 := by
  have hp := p.threshold_range
  simp only [Block.dbSample]
  split
  · simp_all
  · split
    · simp_all
    · rename_i hne hlt
      simp only [hne, hlt, or_self, if_false, BitVec.toNat_ofNat]
      omega

/-- The debounce half writes only the debounce filter. -/
theorem Block.dbSample_frame (p : Params) (raw : Bool) (b : Block) :
    b.dbSample p raw = { b with dbCnt := (b.dbSample p raw).dbCnt, dbDown := (b.dbSample p raw).dbDown } := by
  simp only [Block.dbSample]
  split
  · rfl
  · split <;> rfl

/-! ### TICK (R90): the two halves touch disjoint fields -/

@[simp] theorem Block.tick_tbSec (p : Params) (raw : Bool) (b : Block) :
    (b.tick p raw).tbSec = (b.tbTick p).tbSec := by
  rw [Block.tick, Block.dbSample_frame]

@[simp] theorem Block.tick_tbUsec (p : Params) (raw : Bool) (b : Block) :
    (b.tick p raw).tbUsec = (b.tbTick p).tbUsec := by
  rw [Block.tick, Block.dbSample_frame]

theorem Block.dbSample_congr (p : Params) (raw : Bool) (b c : Block) (hcnt : b.dbCnt = c.dbCnt)
    (hdown : b.dbDown = c.dbDown) :
    (b.dbSample p raw).dbCnt = (c.dbSample p raw).dbCnt ∧ (b.dbSample p raw).dbDown = (c.dbSample p raw).dbDown := by
  simp only [Block.dbSample, hcnt, hdown]
  split
  · exact ⟨rfl, rfl⟩
  · split <;> exact ⟨rfl, rfl⟩

@[simp] theorem Block.tick_dbCnt (p : Params) (raw : Bool) (b : Block) :
    (b.tick p raw).dbCnt = (b.dbSample p raw).dbCnt := by
  refine (Block.dbSample_congr p raw (b.tbTick p) b ?_ ?_).1 <;> rw [Block.tbTick_frame]

@[simp] theorem Block.tick_dbDown (p : Params) (raw : Bool) (b : Block) :
    (b.tick p raw).dbDown = (b.dbSample p raw).dbDown := by
  refine (Block.dbSample_congr p raw (b.tbTick p) b ?_ ?_).2 <;> rw [Block.tbTick_frame]

/-- TICK as a whole: the four fields of the two halves, the rest of the block alone. -/
theorem Block.tick_frame (p : Params) (raw : Bool) (b : Block) :
    b.tick p raw = { b with
      tbSec := (b.tbTick p).tbSec, tbUsec := (b.tbTick p).tbUsec
      dbCnt := (b.dbSample p raw).dbCnt, dbDown := (b.dbSample p raw).dbDown } := by
  have hfilter : ∀ (b' : Block) (c : BitVec 8) (d : Bool), b' = b.tbTick p →
      { b' with dbCnt := c, dbDown := d } =
        { b with tbSec := (b.tbTick p).tbSec, tbUsec := (b.tbTick p).tbUsec, dbCnt := c, dbDown := d } := by
    intro b' c d h
    rw [Block.tbTick_frame] at h
    subst h
    rfl
  rw [← Block.tick_dbCnt, ← Block.tick_dbDown, ← hfilter _ _ _ rfl]
  exact Block.dbSample_frame p raw (b.tbTick p)

/-! ### SET_BRIGHTNESS (R125) -/

@[simp] theorem Block.setLevel_brLevel (l : Level) (b : Block) : (b.setLevel l).brLevel = l := by
  simp only [Block.setLevel]
  split
  · rfl
  · split <;> rfl

theorem Block.setLevel_enables (l : Level) (b : Block) :
    (b.setLevel l).pwmOvfEn = isDimmed l ∧ (b.setLevel l).pwmCmpEn = isDimmed l := by
  simp only [Block.setLevel, isDimmed]
  split
  · simp_all
  · split <;> simp_all

theorem Block.setLevel_pwmOcr (l : Level) (b : Block) :
    (b.setLevel l).pwmOcr = if isDimmed l then l else b.pwmOcr := by
  simp only [Block.setLevel, isDimmed]
  split
  · simp_all
  · split <;> simp_all

theorem Block.setLevel_lamp (l : Level) (b : Block) :
    (b.setLevel l).lamp = if isDimmed l then b.lamp else decide (l = levelFull) := by
  simp only [Block.setLevel, isDimmed]
  split
  · simp_all [levelOff, levelFull]
  · split <;> simp_all

/-- `SET_BRIGHTNESS` writes neither the Time Base, nor the filter, nor the PWM count. -/
theorem Block.setLevel_frame (l : Level) (b : Block) :
    b.setLevel l = { b with
      brLevel := (b.setLevel l).brLevel, pwmOcr := (b.setLevel l).pwmOcr, pwmOvfEn := (b.setLevel l).pwmOvfEn
      pwmCmpEn := (b.setLevel l).pwmCmpEn, lamp := (b.setLevel l).lamp } := by
  simp only [Block.setLevel]
  split
  · rfl
  · split <;> rfl

/-! ### PWMCLK (R127 to R130) -/

/-- The pin after the two events of one count (R128, R129): the compare match is applied last (R130). -/
theorem Block.pwmCount_eq (b : Block) :
    b.pwmCount = { b with
      pwmCnt := b.pwmCnt + 1#8
      lamp := if b.pwmCmpEn = true ∧ b.pwmCnt + 1#8 = b.pwmOcr then false
        else if b.pwmOvfEn = true ∧ b.pwmCnt + 1#8 = 0#8 then true else b.lamp } := by
  cases b with
  | mk sec usec cnt down level ocr ovf cmp pcnt lamp =>
    simp only [Block.pwmCount, Block.overflowEvent, Block.compareEvent, Block.pwmOverflow, Block.pwmCompare,
      overflowsAt, matchesAt, decide_eq_true_eq]
    cases ovf <;> cases cmp <;> by_cases h0 : pcnt + 1#8 = 0#8 <;> by_cases h1 : pcnt + 1#8 = ocr <;> simp_all

/-! ### Every operation -/

/-- The block after an operation. -/
def Block.after (p : Params) (i : Instr) (b : Block) : Block :=
  match i with
  | .tick raw => b.tick p raw
  | .pwmclk => b.pwmCount
  | .setBrightness level => b.setLevel level
  | .now => b
  | .elapsed _ _ => b
  | .isDown => b
  | .getBrightness => b

/-- What every operation does to the state: it answers a next state, in which only the block and the outputs may
differ. -/
theorem exec_spec (i : Instr) (s : State) :
    ∃ o, exec i s = .next { s with block := s.block.after s.params i, out := o } := by
  cases i <;> exact ⟨_, rfl⟩

/-- The block after a list of operations. -/
def Block.afterAll (p : Params) (ops : List Instr) (b : Block) : Block :=
  ops.foldl (fun b i => b.after p i) b

@[simp] theorem Block.afterAll_nil (p : Params) (b : Block) : b.afterAll p [] = b := rfl

@[simp] theorem Block.afterAll_cons (p : Params) (i : Instr) (ops : List Instr) (b : Block) :
    b.afterAll p (i :: ops) = (b.after p i).afterAll p ops := rfl

/-- What a list of operations does to the state: it answers a next state, in which only the block and the outputs may
differ. -/
theorem execAll_spec (ops : List Instr) (s : State) :
    ∃ o, execAll ops s = .next { s with block := s.block.afterAll s.params ops, out := o } := by
  induction ops generalizing s with
  | nil => exact ⟨s.out, rfl⟩
  | cons i ops ih =>
    obtain ⟨o, ho⟩ := exec_spec i s
    obtain ⟨o', ho'⟩ := ih { s with block := s.block.after s.params i, out := o }
    exact ⟨o', by simp only [execAll, ho, ho', Block.afterAll_cons]⟩

/-! ### One presented word, one step -/

/-- What a performed word can do: a legal word is its operation; an illegal one only sets the outputs (R72, R74). -/
theorem perform_cases (p : Port) (w : OpWord) (s : State) :
    (∃ i, decode p w = .operation i ∧ perform p w s = exec i s) ∨
    (∃ why, decode p w = .illegal why ∧ perform p w s = .next (s.signalIllegal p)) := by
  cases h : decode p w with
  | operation i => exact .inl ⟨i, rfl, by simp only [perform, h]⟩
  | illegal why => exact .inr ⟨why, rfl, by simp only [perform, h]⟩

/-- What a step can do, by the oldest presentation (R57, R67, R175). -/
theorem step_cases (s : State) :
    (s.inputs = [] ∧ step s = .next s.quiet) ∨
    ∃ pins rest, s.inputs = pins :: rest ∧
      ((pins.reset = true ∧ step s = .next (s.withInputs rest).resetEvent) ∨
       (pins.reset = false ∧ pins.ev = none ∧ pins.cmd = none ∧ step s = .next (s.withInputs rest).quiet) ∨
       (pins.reset = false ∧ ∃ p w inputs ties, (p = .ev → pins.ev = some w) ∧ (p = .cmd → pins.cmd = some w) ∧
         ((pins.ev = none ∨ pins.cmd = none) → inputs = rest ∧ ties = s.ties) ∧
         (∀ e c, pins.ev = some e → pins.cmd = some c → ties = s.ties + 1 ∧
           inputs = (match p with
             | .ev => presentWord .cmd c
             | .cmd => presentWord .ev e) :: rest) ∧
         step s = perform p w { s with inputs := inputs, ties := ties })) := by
  cases hs : s.inputs with
  | nil => exact .inl ⟨rfl, by simp only [step, performNext, hs]⟩
  | cons pins rest =>
    refine .inr ⟨pins, rest, rfl, ?_⟩
    cases hr : pins.reset with
    | true => exact .inl ⟨rfl, by simp [step, performNext, hs, performPins, hr]⟩
    | false =>
      refine .inr ?_
      cases he : pins.ev with
      | none =>
        cases hc : pins.cmd with
        | none => exact .inl ⟨rfl, rfl, rfl, by simp [step, performNext, hs, performPins, hr, he, hc]⟩
        | some c =>
          exact .inr ⟨rfl, .cmd, c, rest, s.ties, by simp, by simp, by simp, by simp,
            by simp [step, performNext, hs, performPins, hr, he, hc, State.withInputs]⟩
      | some e =>
        cases hc : pins.cmd with
        | none =>
          exact .inr ⟨rfl, .ev, e, rest, s.ties, by simp, by simp, by simp, by simp,
            by simp [step, performNext, hs, performPins, hr, he, hc, State.withInputs]⟩
        | some c =>
          cases hf : Config.commandFirst s.ties with
          | true =>
            exact .inr ⟨rfl, .cmd, c, presentWord .ev e :: rest, s.ties + 1, by simp, by simp, by simp, by simp,
              by simp [step, performNext, hs, performPins, hr, he, hc, performOneOf, hf]⟩
          | false =>
            exact .inr ⟨rfl, .ev, e, presentWord .cmd c :: rest, s.ties + 1, by simp, by simp, by simp, by simp,
              by simp [step, performNext, hs, performPins, hr, he, hc, performOneOf, hf]⟩

end Sys2Proof.Machine
end

