-- ==== Sys2Proof/Laws/PerInstr.lean ====
section
/-! SUPPORT. One lemma per operation: its encoding is matched by its own row of the opcode table (spec R74). -/

namespace Sys2Proof.Laws

open Sys2Proof.Machine

/-- The encoding of `i` is accepted, on the port of `i`, by a row of the table that names the operation of `i`. -/
def OpcodeTable.Statement (i : Instr) : Prop :=
  ∃ r ∈ opcodeTable, r.operation = i.operation ∧ r.accepts i.port (encode i) = true

theorem OpcodeTable.tick (raw : Bool) : OpcodeTable.Statement (.tick raw) :=
  ⟨_, .head _, rfl, by cases raw <;> decide⟩

theorem OpcodeTable.pwmclk : OpcodeTable.Statement .pwmclk :=
  ⟨_, .tail _ (.head _), rfl, by decide⟩

theorem OpcodeTable.now : OpcodeTable.Statement .now :=
  ⟨_, .tail _ (.tail _ (.head _)), rfl, by decide⟩

theorem OpcodeTable.elapsed (sinceSec sinceUsec : Time32) : OpcodeTable.Statement (.elapsed sinceSec sinceUsec) := by
  refine ⟨_, .tail _ (.tail _ (.tail _ (.head _))), rfl, ?_⟩
  have hmask : (0xFF0000000000000000#72 : OpWord) = wordOf 0xFF#8 0#64 := by decide
  have hpattern : (0x110000000000000000#72 : OpWord) = wordOf 0x11#8 0#64 := by decide
  have hword : encode (.elapsed sinceSec sinceUsec) = wordOf 0x11#8 (packInstant ⟨sinceSec, sinceUsec⟩) := rfl
  simp only [Row.accepts, Bool.and_eq_true, decide_eq_true_eq]
  exact ⟨rfl, by rw [hmask, hpattern, hword, wordOf_and, BitVec.and_zero]; rfl⟩

theorem OpcodeTable.isDown : OpcodeTable.Statement .isDown :=
  ⟨_, .tail _ (.tail _ (.tail _ (.tail _ (.head _)))), rfl, by decide⟩

theorem OpcodeTable.setBrightness (level : Level) : OpcodeTable.Statement (.setBrightness level) := by
  refine ⟨_, .tail _ (.tail _ (.tail _ (.tail _ (.tail _ (.head _))))), rfl, ?_⟩
  revert level
  decide +revert

theorem OpcodeTable.getBrightness : OpcodeTable.Statement .getBrightness :=
  ⟨_, .tail _ (.tail _ (.tail _ (.tail _ (.tail _ (.tail _ (.head _)))))), rfl, by decide⟩

end Sys2Proof.Laws
end

