-- ==== Sys2Proof/Tests/Slice0.lean ====
section
/-! SUPPORT. Tests on single steps, with expected values from the spec's worked examples and vectors, the smoke tests of
WellFormed, and a witness for the hypotheses of each statement. -/

namespace Sys2Proof.Tests

open Sys2Proof.Machine

/-! ### Helpers -/

/-- P = 1000 and the default T (30), the parameters of most vectors. -/
def usual : Params := { period := 1000 }

/-- T = 3, as in vector DB-1. -/
def shortFilter : Params := { period := 1000, threshold := 3 }

/-- A state with the given parameters, block and presentations. -/
def stateOf (p : Params) (b : Block) (inputs : List Pins) : State := ⟨b, p, inputs, 0, Outputs.quiet⟩

/-- The block after a result. -/
def blockOf : Result → Option Block
  | .next t => some t.block
  | _ => none

/-- The outputs after a result. -/
def outOf : Result → Option Outputs
  | .next t => some t.out
  | _ => none

/-- What can be observed after a result. -/
def observed : Result → Option Observation
  | .next t => some t.observe
  | _ => none

/-- The start state of the illegal words (section 2.1 of the vectors). -/
def illStart : Block := ⟨0#32, 5000#32, 5#8, false, 77#8, 77#8, true, true, 9#8, false⟩

/-- The start state of BR-1 to BR-6. -/
def brStart : Block := ⟨0#32, 0#32, 0#8, false, 100#8, 100#8, true, true, 10#8, true⟩

/-! ### Well-formedness: an ill-formed term for each check -/

theorem test_instant_wellFormed : (Instant.mk 7#32 999999#32).wellFormed = true := by decide
theorem test_instant_illFormed : (Instant.mk 7#32 1000000#32).wellFormed = false := by decide
theorem test_pins_wellFormed : (Pins.mk false (some 0#72) (some 0#72)).wellFormed = true := by decide
theorem test_pins_illFormed_ev : (Pins.mk true (some 0#72) none).wellFormed = false := by decide
theorem test_pins_illFormed_cmd : (Pins.mk true none (some 0#72)).wellFormed = false := by decide
theorem test_instr_wellFormed : (Instr.elapsed 0xFFFFFFFF#32 0xFFFFFFFF#32).wellFormed = true := by decide

/-! ### The parameters (R9) -/

theorem test_defaultThreshold : usual.threshold = 30 ∧ (Config.paramsOf 999 none).threshold = 30 ∧
    (Config.paramsOf 999 (some 2)).threshold = 3 ∧ Config.paramsOf 999 none = usual := by decide

/-! ### Decoding: a word written out from the encoding of each operation (R65, R68, R70; vectors EN-1 to EN-12) -/

theorem test_decode_tick : decode .ev (0b00000001#8 ++ 0#63 ++ 0b1#1) = .operation (.tick true) := by decide
theorem test_decode_pwmclk : decode .ev (0b00000010#8 ++ 0#64) = .operation .pwmclk := by decide
theorem test_decode_now : decode .cmd (0b00010000#8 ++ 0#64) = .operation .now := by decide
theorem test_decode_elapsed :
    decode .cmd (0b00010001#8 ++ 1#32 ++ 500000#32) = .operation (.elapsed 1#32 500000#32) := by decide
theorem test_decode_elapsed_ones :
    decode .cmd 0x11FFFFFFFFFFFFFFFF#72 = .operation (.elapsed 0xFFFFFFFF#32 0xFFFFFFFF#32) := by decide
theorem test_decode_isDown : decode .cmd (0b00010010#8 ++ 0#64) = .operation .isDown := by decide
theorem test_decode_setBrightness :
    decode .cmd (0b00010011#8 ++ 0#56 ++ 0b10000000#8) = .operation (.setBrightness 128#8) := by decide
theorem test_decode_getBrightness : decode .cmd (0b00010100#8 ++ 0#64) = .operation .getBrightness := by decide

/-- IL-1 to IL-5: reserved opcodes. -/
theorem test_decode_reserved :
    decode .cmd 0x000000000000000000#72 = .illegal .reservedOpcode ∧
    decode .ev 0x000000000000000000#72 = .illegal .reservedOpcode ∧
    decode .ev 0x030000000000000000#72 = .illegal .reservedOpcode ∧
    decode .cmd 0x150000000000000000#72 = .illegal .reservedOpcode ∧
    decode .cmd 0xFF0000000000000000#72 = .illegal .reservedOpcode := by decide

/-- IL-6, IL-7: the wrong port. -/
theorem test_decode_wrongPort :
    decode .cmd 0x010000000000000001#72 = .illegal .wrongPort ∧
    decode .ev 0x130000000000000080#72 = .illegal .wrongPort := by decide

/-- IL-8 to IL-13: a "must be 0" bit is 1. -/
theorem test_decode_mustBeZero :
    decode .ev 0x010000000000000002#72 = .illegal .mustBeZero ∧
    decode .ev 0x020000000000000001#72 = .illegal .mustBeZero ∧
    decode .cmd 0x100000000000000001#72 = .illegal .mustBeZero ∧
    decode .cmd 0x128000000000000000#72 = .illegal .mustBeZero ∧
    decode .cmd 0x130000000000000100#72 = .illegal .mustBeZero ∧
    decode .cmd 0x140000000100000000#72 = .illegal .mustBeZero := by decide

/-- EN-6 and EN-10, encoded. -/
theorem test_encode : encode (.elapsed 0#32 999000#32) = 0x1100000000000F3E58#72 ∧
    encode (.setBrightness 128#8) = 0x130000000000000080#72 := by decide

theorem test_decodeTableWord : decodeTableWord 72 0x130000000000000080 = some (.setBrightness 128#8) ∧
    decodeTableWord 72 0x010000000000000001 = some (.tick true) ∧ decodeTableWord 72 0x150000000000000000 = none := by
  decide

/-! ### The pseudo-operations and the text form (R75, R76) -/

theorem test_tickN : tickN 2 true = [⟨false, some 0x010000000000000001#72, none⟩,
    ⟨false, some 0x010000000000000001#72, none⟩] := by decide
theorem test_pwmclkN : pwmclkN 1 = [⟨false, some 0x020000000000000000#72, none⟩] ∧
    resetLine = [⟨true, none, none⟩] := by decide
theorem test_elapsedSince : elapsedSinceResponse 0x00000000000F3E58#64 = .elapsed 0#32 999000#32 := by decide
theorem test_line : lineOf (.elapsed 1#32 500000#32) = "ELAPSED 1, 500000" ∧ lineOf (.tick true) = "TICK 1" ∧
    lineOf .getBrightness = "GET_BRIGHTNESS" := by decide
theorem test_result : resultOf .now 0x00000001000003E8#64 = some "-> (1, 1000)" ∧
    resultOf .isDown 1#64 = some "-> 1" ∧ resultOf .pwmclk 0#64 = none := by decide

/-- The PWM period is 256 counts (R11). -/
theorem test_pwmPeriod : pwmPeriod = 256 := by decide

/-! ### One operation each -/

/-- The example of R90: from reset, P = 1000, T = 30, `TICK 1`. -/
theorem test_tick_first : blockOf (exec (.tick true) (stateOf usual Block.reset [])) =
    some { Block.reset with tbUsec := 1000#32, dbCnt := 1#8 } := by decide

/-- TB-T8 and the example of R110: the seconds wrap, and the third disagreeing sample flips. -/
theorem test_tick_wrap_flip :
    blockOf (exec (.tick true) (stateOf shortFilter
      { Block.reset with tbSec := 0xFFFFFFFF#32, tbUsec := 999000#32, dbCnt := 2#8 } [])) =
    some { Block.reset with dbDown := true } := by decide

/-- The example of R127. -/
theorem test_pwmclk_overflow :
    blockOf (exec .pwmclk (stateOf usual
      { Block.reset with pwmCnt := 255#8, pwmOcr := 3#8, pwmOvfEn := true, pwmCmpEn := true } [])) =
    some { Block.reset with pwmOcr := 3#8, pwmOvfEn := true, pwmCmpEn := true, lamp := true } := by decide

/-- BR-15: overflow and compare in one step leave the pin low. -/
theorem test_pwmclk_both :
    blockOf (exec .pwmclk (stateOf usual
      { Block.reset with pwmCnt := 255#8, pwmOvfEn := true, pwmCmpEn := true, lamp := true } [])) =
    some { Block.reset with pwmOvfEn := true, pwmCmpEn := true } := by decide

/-- PRG-1, line 7. -/
theorem test_now : outOf (exec .now (stateOf usual { Block.reset with tbSec := 1#32, tbUsec := 1000#32 } [])) =
    some ⟨some 0x00000001000003E8#64, false, false⟩ := by decide

/-- TB-E1: the microsecond borrow corrects itself. -/
theorem test_elapsed_borrow :
    outOf (exec (.elapsed 0#32 999000#32) (stateOf usual { Block.reset with tbSec := 1#32 } [])) =
    some ⟨some 1000#64, false, false⟩ := by decide

/-- TB-E6: not saturated. -/
theorem test_elapsed_later : outOf (exec (.elapsed 0#32 1#32) (stateOf usual Block.reset [])) =
    some ⟨some 0x00000000FFFFFFFF#64, false, false⟩ := by decide

/-- The example of R111. -/
theorem test_isDown : outOf (exec .isDown (stateOf usual { Block.reset with dbDown := true } [])) =
    some ⟨some 1#64, false, false⟩ := by decide

/-- BR-1: the compare register is kept. -/
theorem test_setBrightness_off : blockOf (exec (.setBrightness 0#8) (stateOf usual brStart [])) =
    some { brStart with brLevel := 0#8, pwmOvfEn := false, pwmCmpEn := false, lamp := false } := by decide

/-- BR-3: the pin is kept. -/
theorem test_setBrightness_dim : blockOf (exec (.setBrightness 1#8) (stateOf usual brStart [])) =
    some { brStart with brLevel := 1#8, pwmOcr := 1#8 } := by decide

/-- BR-6. -/
theorem test_getBrightness : outOf (exec .getBrightness (stateOf usual brStart [])) =
    some ⟨some 0x0000000000000064#64, false, false⟩ := by decide

/-! ### One step -/

/-- PRG-6, line 2, and R67: an illegal word on EV. -/
theorem test_step_illegal_ev :
    observed (step (stateOf usual illStart [⟨false, some 0x130000000000000080#72, none⟩])) =
      some ⟨false, none, false, true⟩ ∧
    blockOf (step (stateOf usual illStart [⟨false, some 0x130000000000000080#72, none⟩])) = some illStart := by decide

/-- PRG-6, line 3: an illegal word on CMD. -/
theorem test_step_illegal_cmd :
    observed (step (stateOf usual illStart [⟨false, none, some 0x130000000000000100#72⟩])) =
      some ⟨false, some 0#64, true, false⟩ := by decide

/-- RS-1, R175: RESET discards the word presented with it. -/
theorem test_step_reset : blockOf (step (stateOf usual illStart [⟨true, none, some 0x1300000000000000FF#72⟩])) =
    some Block.reset := by decide

/-- The word placed by `withFetchWord` is the one the next step performs. -/
theorem test_withFetchWord :
    blockOf (step (State.reset.withFetchWord 72 0x130000000000000080)) =
      some { Block.reset with brLevel := 128#8, pwmOcr := 128#8, pwmOvfEn := true, pwmCmpEn := true } ∧
    outOf (step (State.reset.withFetchWord 72 0x100000000000000000)) = some ⟨some 0#64, false, false⟩ := by decide

/-! ### Witnesses: states and operands that meet the hypotheses of the statements -/

/-- The hypothesis of LegalWordIsItsEncoding. -/
theorem witness_LegalWordIsItsEncoding :
    decode .cmd 0x11FFFFFFFFFFFFFFFF#72 = .operation (.elapsed 0xFFFFFFFF#32 0xFFFFFFFF#32) := by decide

/-- The three clauses of DecoderFollowsOpcodeTable: a word a row matches, and a word no row matches. -/
theorem witness_DecoderFollowsOpcodeTable :
    (∃ r ∈ opcodeTable, r.port = .cmd ∧ 0x1300000000000000FF#72 &&& r.mask = r.pattern) ∧
    (∀ r ∈ opcodeTable, ¬ (r.port = .cmd ∧ 0x130000000000000100#72 &&& r.mask = r.pattern)) := by decide

/-- The hypothesis of OperationIsIllegalOnOtherPort. -/
theorem witness_OperationIsIllegalOnOtherPort : Port.cmd ≠ (Instr.tick true).port := by decide

/-- The hypotheses of StepRunsDecodedOperation and of WordIsPerformedInOneStep's clause about legal words, on each
port. -/
theorem witness_StepRunsDecodedOperation :
    (stateOf usual illStart [presentWord .ev 0x010000000000000001#72]).inputs =
      presentWord .ev 0x010000000000000001#72 :: [] ∧
    decode .ev 0x010000000000000001#72 = .operation (.tick true) ∧
    (stateOf usual illStart [presentWord .cmd 0x100000000000000000#72]).inputs =
      presentWord .cmd 0x100000000000000000#72 :: [] ∧
    decode .cmd 0x100000000000000000#72 = .operation .now := by decide

/-- The hypotheses of WordIsPerformedInOneStep's clause about illegal words, on each port. -/
theorem witness_WordIsPerformedInOneStep :
    (stateOf usual illStart [presentWord .ev 0x030000000000000000#72]).inputs =
      presentWord .ev 0x030000000000000000#72 :: [] ∧
    decode .ev 0x030000000000000000#72 = .illegal .reservedOpcode ∧
    (stateOf usual illStart [presentWord .cmd 0x010000000000000001#72]).inputs =
      presentWord .cmd 0x010000000000000001#72 :: [] ∧
    decode .cmd 0x010000000000000001#72 = .illegal .wrongPort := by decide

/-- The hypotheses of the first clause of IllegalWordIsInert: each of the three grounds. -/
theorem witness_IllegalWordIsInert_ground :
    IllegalWord .cmd 0x150000000000000000#72 ∧ IllegalWord .ev 0x010000000000000002#72 ∧
    IllegalWord .ev 0x130000000000000080#72 := by
  refine ⟨.inl fun o => by cases o <;> decide, .inr (.inl ⟨.tick, by decide⟩), .inr (.inr ⟨.setBrightness, by decide⟩)⟩

/-- The hypotheses of its second and third clauses: a step that raises each flag. -/
theorem witness_IllegalWordIsInert_flags :
    (∃ t, step (stateOf usual illStart [presentWord .cmd 0x150000000000000000#72]) = .next t ∧ t.out.cmdIll = true) ∧
    (∃ t, step (stateOf usual illStart [presentWord .ev 0x030000000000000000#72]) = .next t ∧ t.out.evIll = true) :=
  ⟨⟨_, rfl, by decide⟩, ⟨_, rfl, by decide⟩⟩

/-- The hypotheses of StepWithoutWordIsIdle, SimultaneousWordsAreSerialised and ResetEventClearsBlock. -/
theorem witness_presentations :
    (stateOf usual illStart []).inputs = [] ∧
    (stateOf usual illStart [⟨false, none, none⟩]).inputs = ⟨false, none, none⟩ :: [] ∧
    (stateOf usual illStart [⟨false, some 0x020000000000000000#72, some 0x100000000000000000#72⟩]).inputs =
      ⟨false, some 0x020000000000000000#72, some 0x100000000000000000#72⟩ :: [] ∧
    (stateOf usual illStart [⟨true, some 0#72, none⟩]).inputs = ⟨true, some 0#72, none⟩ :: [] := by decide

/-- Both clauses of TickAdvancesTimeBase, where they meet: the sum 1_000_000 and the sum 999_999 (TB-T2, TB-T10). -/
theorem witness_TickAdvancesTimeBase :
    1000000 ≤ (999000#32).toNat + usual.period ∧ (998999#32).toNat + usual.period < 1000000 := by decide

/-- The three clauses of TickSamplesButton: agreement, the last disagreeing tick (count T - 1) and the one before. -/
theorem witness_TickSamplesButton :
    false = Block.reset.dbDown ∧ true ≠ Block.reset.dbDown ∧ shortFilter.threshold ≤ (2#8).toNat + 1 ∧
    (1#8).toNat + 1 < shortFilter.threshold := by decide

/-- The hypotheses of TotalTimeCountsTicks and of ElapsedSinceNowCountsTicks (b), at the largest `tb_usec`. -/
theorem witness_TotalTimeCountsTicks :
    ({ Block.reset with tbUsec := 999999#32 } : Block).tbUsec.toNat < 1000000 ∧
    ({ Block.reset with tbUsec := 999999#32 } : Block).total + tickCount [.tick true, .now] * usual.period <
      2 ^ 32 * 1000000 ∧
    ({ Block.reset with tbUsec := 999999#32 } : Block).total + usual.period < 2 ^ 32 * 1000000 := by decide

/-- The hypothesis of the second clause of NowReturnsSnapshot, at the largest `tb_usec`. -/
theorem witness_NowReturnsSnapshot : (stateOf usual { illStart with tbUsec := 999999#32 } []).Inv :=
  ⟨by decide, by decide, rfl, by decide, by decide, by decide, by decide⟩

/-- Both sides of the window of ElapsedIsTrueExactlyInWindow, for P = 1_000_000: 4294 ticks are in, 4295 are out. -/
theorem witness_ElapsedIsTrueExactlyInWindow :
    InWindow { period := 1000000, threshold := 1 } 4294 ∧ ¬ InWindow { period := 1000000, threshold := 1 } 4295 := by
  unfold InWindow
  decide

/-- Clause (a) of DebounceStability at its boundary: T = 3, a glitch of T - 1 ticks. -/
theorem witness_DebounceStability_glitch :
    Block.reset.dbCnt = 0#8 ∧ AllTicksCarry (!Block.reset.dbDown) [.tick true, .pwmclk, .tick true] ∧
    tickCount [.tick true, .pwmclk, .tick true] + 1 ≤ shortFilter.threshold := by
  unfold AllTicksCarry
  decide

/-- Clauses (b) and (c) of DebounceStability where they meet: from count 2 and T = 3, no tick and one tick. -/
theorem witness_DebounceStability_sustained :
    (2#8).toNat < shortFilter.threshold ∧ AllTicksCarry true [.now] ∧
    (2#8).toNat + tickCount [.now] < shortFilter.threshold ∧ AllTicksCarry true [.tick true] ∧
    shortFilter.threshold ≤ (2#8).toNat + tickCount [.tick true] := by
  unfold AllTicksCarry
  decide

/-- The hypotheses of FlipsAreThresholdTicksApart: a tick that flips, and T - 1 further ticks. -/
theorem witness_FlipsAreThresholdTicksApart :
    (∃ t, exec (.tick true) (stateOf shortFilter { Block.reset with dbCnt := 2#8 } []) = .next t ∧
      t.block.dbDown ≠ ({ Block.reset with dbCnt := 2#8 } : Block).dbDown) ∧
    tickCount [.tick false, .tick false] < shortFilter.threshold :=
  ⟨⟨_, rfl, by decide⟩, by decide⟩

/-- The hypotheses of AlternatingInputNeverFlips: at the smallest threshold, a first sample that agrees while the count
is T - 1; and with T = 3, a first sample that disagrees from the largest count that is allowed, T - 2. -/
theorem witness_AlternatingInputNeverFlips :
    2 ≤ ({ period := 1, threshold := 2 } : Params).threshold ∧
    TicksAlternate false [.tick false, .now, .tick true, .pwmclk, .tick false] ∧
    false = ({ Block.reset with dbCnt := 1#8 } : Block).dbDown ∧
    2 ≤ shortFilter.threshold ∧ TicksAlternate true [.isDown, .tick true, .tick false] ∧
    (1#8).toNat + 1 < shortFilter.threshold := by
  unfold TicksAlternate
  decide

/-- The hypotheses of DefaultThresholdIsThirty on both sides of the 30th tick. -/
theorem witness_DefaultThresholdIsThirty :
    (stateOf usual Block.reset []).params = Config.paramsOf 999 none ∧ Block.reset.dbCnt = 0#8 ∧
    AllTicksCarry (!Block.reset.dbDown) (.now :: List.replicate 30 (.tick true)) ∧
    tickCount (List.replicate 29 (.tick true)) < 30 ∧
    30 ≤ tickCount (.now :: List.replicate 30 (.tick true)) := by
  unfold AllTicksCarry
  decide

/-- The clauses of SetBrightnessConfiguresPwm at the ends of their ranges: 0, 1, 254 and 255. -/
theorem witness_SetBrightnessConfiguresPwm :
    (0#8 = 0#8) ∧ (1#8 ≠ 0#8 ∧ 1#8 ≠ 255#8) ∧ (254#8 ≠ 0#8 ∧ 254#8 ≠ 255#8) ∧ (255#8 = 255#8) := by decide

/-- The hypothesis of GetBrightnessReturnsLastLevelSet, and of the third clause of ReadsHaveNoSideEffect. -/
theorem witness_LevelHeld : LevelHeld [.tick true, .pwmclk, .now, .getBrightness] := by
  unfold LevelHeld
  decide

/-- The clauses of PwmclkCountsAndDrivesPin: an armed match, an armed overflow, neither. -/
theorem witness_PwmclkCountsAndDrivesPin :
    (∃ t, exec .pwmclk (stateOf usual { brStart with pwmCnt := 99#8 } []) = .next t ∧
      t.block.pwmCnt = 100#8 ∧ t.block.lamp = false) ∧
    (∃ t, exec .pwmclk (stateOf usual { brStart with pwmCnt := 255#8, lamp := false } []) = .next t ∧
      t.block.pwmCnt = 0#8 ∧ t.block.lamp = true) ∧
    (∃ t, exec .pwmclk (stateOf usual { brStart with pwmCnt := 100#8 } []) = .next t ∧
      t.block.pwmCnt = 101#8 ∧ t.block.lamp = true) :=
  ⟨⟨_, rfl, by decide⟩, ⟨_, rfl, by decide⟩, ⟨_, rfl, by decide⟩⟩

/-- The hypotheses of DisarmedEventsAreLost, with the last clause at both ends of its range. -/
theorem witness_DisarmedEventsAreLost :
    Block.reset.pwmOvfEn = false ∧ Block.reset.pwmCmpEn = false ∧ LevelHeld [.pwmclk, .pwmclk] ∧
    (1 ≤ (1#8).toNat ∧ (1#8).toNat ≤ 254) ∧ (1 ≤ (254#8).toNat ∧ (254#8).toNat ≤ 254) := by
  unfold LevelHeld
  decide

/-- The hypotheses of DutyCycleIsLevelOf256, for the smallest and the largest dimmed level. -/
theorem witness_DutyCycleIsLevelOf256 :
    (1 ≤ 1 ∧ 1 ≤ 254 ∧ (1#8).toNat = 1) ∧ (1 ≤ 254 ∧ 254 ≤ 254 ∧ (254#8).toNat = 254) ∧
    ({ brStart with pwmCnt := 255#8, pwmOcr := 254#8 } : Block).pwmOvfEn = true ∧
    ({ brStart with pwmCnt := 255#8, pwmOcr := 254#8 } : Block).pwmCmpEn = true ∧
    pwmclkCount [.now, .pwmclk, .tick true] = 0 + 1 ∧ LevelHeld [.now, .pwmclk, .tick true] := by
  unfold LevelHeld
  decide

/-- The clauses of PinAfterLevelChange where they meet: pin low with `256 - c` and one less; pin high with `c = L - 1`
and `c = L`, each at the falling edge and one count before it. -/
theorem witness_PinAfterLevelChange :
    LevelHeld [.pwmclk] ∧ (1 ≤ (50#8).toNat ∧ (50#8).toNat ≤ 254) ∧
    (pwmclkCount [] < 256 - (255#8).toNat ∧ 256 - (255#8).toNat ≤ pwmclkCount [.pwmclk]) ∧
    ((49#8).toNat < (50#8).toNat ∧ pwmclkCount [] < (50#8).toNat - (49#8).toNat ∧
      (50#8).toNat - (49#8).toNat ≤ pwmclkCount [.pwmclk]) ∧
    ((1#8).toNat ≤ (255#8).toNat ∧ pwmclkCount [.pwmclk] < 256 - (255#8).toNat + (1#8).toNat ∧
      256 - (255#8).toNat + (1#8).toNat ≤ pwmclkCount [.pwmclk, .pwmclk]) ∧
    (50#8).toNat ≤ (50#8).toNat := by
  unfold LevelHeld
  decide

/-- The hypotheses of SetZeroLeavesResetBrightness. -/
theorem witness_SetZeroLeavesResetBrightness :
    ({ illStart with pwmOcr := 0#8, pwmCnt := 0#8 } : Block).pwmOcr = 0#8 ∧
    ({ illStart with pwmOcr := 0#8, pwmCnt := 0#8 } : Block).pwmCnt = 0#8 := by decide

/-- The hypothesis of the second clause of ReadsHaveNoSideEffect. -/
theorem witness_ReadsHaveNoSideEffect : tickCount [.pwmclk, .setBrightness 7#8, .isDown] = 0 := by decide

/-- The hypotheses of SingleWriterPerField's clauses: an operation that is no `TICK`, no `PWMCLK`, no
`SET_BRIGHTNESS`. -/
theorem witness_SingleWriterPerField :
    (∀ raw, Instr.now ≠ .tick raw) ∧ (∀ level, Instr.now ≠ .setBrightness level) ∧ Instr.now ≠ .pwmclk ∧
    Instr.setBrightness 1#8 ≠ .setBrightness 0#8 ∧ Instr.setBrightness 254#8 ≠ .setBrightness 255#8 :=
  ⟨by decide, by simp, by decide, by decide, by decide⟩

/-- The hypotheses of PortRightsHoldForEveryWord, for each of its clauses. -/
theorem witness_PortRightsHoldForEveryWord :
    (stateOf usual illStart [⟨false, none, some 0x1300000000000000FF#72⟩]).inputs =
      ⟨false, none, some 0x1300000000000000FF#72⟩ :: [] ∧
    (stateOf usual illStart [⟨false, some 0x010000000000000000#72, none⟩]).inputs =
      ⟨false, some 0x010000000000000000#72, none⟩ :: [] := by decide

/-- The hypotheses of CommandsReadOnlyReadableFields: two blocks that differ in everything CMD cannot read. -/
theorem witness_CommandsReadOnlyReadableFields :
    SameReadable illStart { illStart with dbCnt := 9#8, pwmOcr := 3#8, pwmOvfEn := false, pwmCmpEn := false,
                                          pwmCnt := 200#8, lamp := true } := by
  unfold SameReadable
  decide

/-- The hypotheses of StepKeepsInvariant, from a state that is not the reset state. -/
theorem witness_StepKeepsInvariant :
    (stateOf usual illStart [presentWord .ev 0x020000000000000000#72]).Inv ∧
    ∃ t, step (stateOf usual illStart [presentWord .ev 0x020000000000000000#72]) = .next t :=
  ⟨⟨by decide, by decide, rfl, by decide, by decide, by decide, by decide⟩, ⟨_, rfl⟩⟩

/-- The hypothesis of ReachableStatesHaveInvariant and ParametersNeverChange: a run that goes on. -/
theorem witness_run :
    ∃ t, Host.Core.run Sys2Proof.core 1
      { State.reset with params := usual, inputs := [presentWord .cmd 0x130000000000000080#72] } = .next t :=
  ⟨_, rfl⟩

end Sys2Proof.Tests
end

section
/-! PROOFS. The scope of the block (spec R7 to R9): which port each operation belongs to, and the parameters P and T. -/

namespace Sys2Proof

/-! ### Each operation is legal on one port only (R7, R71) -/

/-- Ground (c) of R72: a defined opcode on a port that is not its operation's. -/
theorem decode_of_wrongPort {p : Port} {w : OpWord} {o : Operation} (hop : o.opcode = Machine.opcodeOf w)
    (hport : o.port ≠ p) : decode p w = .illegal .wrongPort := by
  simp only [decode, operationOf_eq_some.mpr hop, ne_eq, hport, not_false_eq_true, if_true]

@[simp] theorem opcodeOf_encode (i : Instr) : Machine.opcodeOf (encode i) = i.operation.opcode :=
  Machine.opcodeOf_wordOf _ _

theorem decode_encode_of_wrongPort {p : Port} {i : Instr} (h : p ≠ i.port) :
    decode p (encode i) = .illegal .wrongPort :=
  decode_of_wrongPort (opcodeOf_encode i).symm h.symm

/-- The events of port EV (R70). -/
theorem Instr.port_eq_ev_iff (i : Instr) : i.port = .ev ↔ (∃ raw, i = .tick raw) ∨ i = .pwmclk := by
  cases i <;> simp [Instr.port, Instr.operation, Operation.port]

/-- R7 and R70 assign ports alike. -/
theorem Instr.agent_port (i : Instr) : i.agent.port = i.port := by
  cases i <;> rfl

/-- Settles O6: a word on a port that is not its operation's is illegal by ground (c) of R72. -/
theorem operationIsIllegalOnOtherPort : Obligations.OperationIsIllegalOnOtherPort :=
  ⟨fun _ _ h => ⟨_, decode_encode_of_wrongPort h⟩, Instr.port_eq_ev_iff, Instr.agent_port⟩

end Sys2Proof

namespace Sys2Proof.Machine

/-! ### The parameters stand (R8, R9) -/

/-- What every step keeps, every run keeps. -/
theorem run_keeps {Q : State → Prop} (hstep : ∀ u v, Q u → step u = .next v → Q v) :
    ∀ (k : Nat) (s t : State), Q s → Host.Core.run Sys2Proof.core k s = .next t → Q t := by
  intro k
  induction k with
  | zero =>
    intro s t hs hrun
    cases hrun
    exact hs
  | succ k ih =>
    intro s t hs hrun
    simp only [Host.Core.run] at hrun
    split at hrun
    next u hu => exact ih u t (hstep s u hs hu) hrun
    · cases hrun
    · cases hrun

theorem exec_params {i : Instr} {s t : State} (h : exec i s = .next t) : t.params = s.params := by
  obtain ⟨o, ho⟩ := exec_spec i s
  cases ho.symm.trans h
  rfl

theorem perform_params {p : Port} {w : OpWord} {s t : State} (h : perform p w s = .next t) :
    t.params = s.params := by
  obtain ⟨i, -, hi⟩ | ⟨why, -, hill⟩ := perform_cases p w s
  · exact exec_params (hi.symm.trans h)
  · cases hill.symm.trans h
    rfl

theorem step_params {s t : State} (h : step s = .next t) : t.params = s.params := by
  obtain ⟨-, hidle⟩ | ⟨pins, rest, -, ⟨-, hreset⟩ | ⟨-, -, -, hidle⟩ |
    ⟨-, p, w, inputs, ties, -, -, -, -, hword⟩⟩ := step_cases s
  · cases hidle.symm.trans h
    rfl
  · cases hreset.symm.trans h
    rfl
  · cases hidle.symm.trans h
    rfl
  · have hparams := perform_params (hword.symm.trans h)
    exact hparams

/-- Settles O45: no kind of step writes the parameters, by induction on the number of steps. -/
theorem parametersNeverChange : Obligations.ParametersNeverChange := fun k s t hrun =>
  run_keeps (Q := fun u => u.params = s.params) (fun _ _ hu hstep => (step_params hstep).trans hu) k s t rfl hrun

/-! ### Ticks in a list of operations -/

@[simp] theorem tickCount_nil : tickCount [] = 0 := rfl

@[simp] theorem tickCount_cons_tick (raw : Bool) (ops : List Instr) :
    tickCount (.tick raw :: ops) = tickCount ops + 1 :=
  Nat.add_comm _ _

theorem tickCount_cons_of_not_tick {i : Instr} (hi : ∀ raw, i ≠ .tick raw) (ops : List Instr) :
    tickCount (i :: ops) = tickCount ops := by
  cases i with
  | tick raw => exact absurd rfl (hi raw)
  | _ => simp [tickCount, Instr.operation]

theorem AllTicksCarry.head {raw r : Bool} {ops : List Instr} (h : AllTicksCarry raw (.tick r :: ops)) : r = raw :=
  h r List.mem_cons_self

theorem AllTicksCarry.tail {raw : Bool} {i : Instr} {ops : List Instr} (h : AllTicksCarry raw (i :: ops)) :
    AllTicksCarry raw ops :=
  fun r hr => h r (List.mem_cons_of_mem i hr)

/-! ### The debounce filter over one operation and over a list of them (R110, R112) -/

/-- Only `TICK` writes the filter (R35). -/
theorem Block.after_filter_of_not_tick (p : Params) {i : Instr} (hi : ∀ raw, i ≠ .tick raw) (b : Block) :
    (b.after p i).dbDown = b.dbDown ∧ (b.after p i).dbCnt = b.dbCnt := by
  cases i with
  | tick raw => exact absurd rfl (hi raw)
  | pwmclk => simp [Block.after, Block.pwmCount_eq]
  | setBrightness level =>
    rw [Block.after, Block.setLevel_frame]
    exact ⟨rfl, rfl⟩
  | now => exact ⟨rfl, rfl⟩
  | elapsed _ _ => exact ⟨rfl, rfl⟩
  | isDown => exact ⟨rfl, rfl⟩
  | getBrightness => exact ⟨rfl, rfl⟩

theorem Block.after_tick_of_agrees (p : Params) {raw : Bool} {b : Block} (hraw : raw = b.dbDown) :
    (b.after p (.tick raw)).dbDown = b.dbDown ∧ (b.after p (.tick raw)).dbCnt = 0#8 := by
  refine ⟨?_, BitVec.eq_of_toNat_eq ?_⟩
  · simp [Block.after, Block.dbSample_dbDown, hraw]
  · simp [Block.after, Block.dbSample_dbCnt_toNat, hraw]

theorem Block.after_tick_of_flips {p : Params} {raw : Bool} {b : Block} (hraw : raw ≠ b.dbDown)
    (hcnt : p.threshold ≤ b.dbCnt.toNat + 1) :
    (b.after p (.tick raw)).dbDown = raw ∧ (b.after p (.tick raw)).dbCnt = 0#8 := by
  refine ⟨?_, BitVec.eq_of_toNat_eq ?_⟩
  · simp [Block.after, Block.dbSample_dbDown, hraw, hcnt]
  · simp [Block.after, Block.dbSample_dbCnt_toNat, hcnt]

theorem Block.after_tick_of_counts {p : Params} {raw : Bool} {b : Block} (hraw : raw ≠ b.dbDown)
    (hcnt : b.dbCnt.toNat + 1 < p.threshold) :
    (b.after p (.tick raw)).dbDown = b.dbDown ∧ (b.after p (.tick raw)).dbCnt.toNat = b.dbCnt.toNat + 1 := by
  simp [Block.after, Block.dbSample_dbDown, Block.dbSample_dbCnt_toNat, hraw, Nat.not_le.mpr hcnt]

/-- A settled filter whose ticks all agree with it stays as it is. -/
theorem Block.afterAll_filter_of_agree (p : Params) {ops : List Instr} {b : Block} (hcnt : b.dbCnt = 0#8)
    (hops : AllTicksCarry b.dbDown ops) :
    (b.afterAll p ops).dbDown = b.dbDown ∧ (b.afterAll p ops).dbCnt = 0#8 := by
  induction ops generalizing b with
  | nil => exact ⟨rfl, hcnt⟩
  | cons i ops ih =>
    have hhead : (b.after p i).dbDown = b.dbDown ∧ (b.after p i).dbCnt = 0#8 := by
      by_cases hi : ∃ raw, i = .tick raw
      · obtain ⟨raw, rfl⟩ := hi
        exact Block.after_tick_of_agrees p hops.head
      · obtain ⟨hdown, hcnt'⟩ := Block.after_filter_of_not_tick p (not_exists.mp hi) b
        exact ⟨hdown, hcnt'.trans hcnt⟩
    obtain ⟨hdown, hzero⟩ := hhead
    have htail := ih hzero (by rw [hdown]; exact hops.tail)
    rwa [hdown] at htail

/-- What a sustained change of the input does to the filter, whatever operations stand between the ticks: it counts them
up to `T - 1`, flips at the `T`-th and then stays. -/
def Block.SustainedChange (p : Params) (n : Nat) (b c : Block) : Prop :=
  (b.dbCnt.toNat + n < p.threshold → c.dbDown = b.dbDown ∧ c.dbCnt.toNat = b.dbCnt.toNat + n) ∧
  (p.threshold ≤ b.dbCnt.toNat + n → c.dbDown = !b.dbDown ∧ c.dbCnt = 0#8)

theorem Block.afterAll_sustainedChange {p : Params} {ops : List Instr} {b : Block}
    (hcnt : b.dbCnt.toNat < p.threshold) (hops : AllTicksCarry (!b.dbDown) ops) :
    Block.SustainedChange p (tickCount ops) b (b.afterAll p ops) := by
  induction ops generalizing b with
  | nil => exact ⟨fun _ => ⟨rfl, rfl⟩, fun h => absurd hcnt (Nat.not_lt.mpr h)⟩
  | cons i ops ih =>
    rw [Block.afterAll_cons]
    by_cases hi : ∃ raw, i = .tick raw
    · obtain ⟨raw, rfl⟩ := hi
      obtain rfl : raw = !b.dbDown := hops.head
      have hne : (!b.dbDown) ≠ b.dbDown := by simp
      rw [tickCount_cons_tick]
      rcases Nat.lt_or_ge (b.dbCnt.toNat + 1) p.threshold with hlt | hge
      · obtain ⟨hdown, hcnt'⟩ := Block.after_tick_of_counts hne hlt
        have htail := ih (hcnt'.trans_lt hlt) (by rw [hdown]; exact hops.tail)
        simpa only [Block.SustainedChange, hdown, hcnt', Nat.add_assoc, Nat.add_comm 1] using htail
      · obtain ⟨hdown, hzero⟩ := Block.after_tick_of_flips hne hge
        have hstays := Block.afterAll_filter_of_agree p hzero (by rw [hdown]; exact hops.tail)
        rw [hdown] at hstays
        exact ⟨fun h => by omega, fun _ => hstays⟩
    · obtain ⟨hdown, hcnt'⟩ := Block.after_filter_of_not_tick p (not_exists.mp hi) b
      have htail := ih (hcnt'.symm ▸ hcnt) (by rw [hdown]; exact hops.tail)
      simpa only [Block.SustainedChange, hdown, hcnt', tickCount_cons_of_not_tick (not_exists.mp hi)] using htail

/-- R112 (b), (c) for a run of operations. -/
theorem execAll_sustainedChange {ops : List Instr} {s : State} (hcnt : s.block.dbCnt.toNat < s.params.threshold)
    (hops : AllTicksCarry (!s.block.dbDown) ops) :
    ∃ t, execAll ops s = .next t ∧ Block.SustainedChange s.params (tickCount ops) s.block t.block := by
  obtain ⟨o, ho⟩ := execAll_spec ops s
  exact ⟨_, ho, Block.afterAll_sustainedChange hcnt hops⟩

/-- Settles O46: without a given T the threshold is 30, and a sustained change of the input of a settled filter is
counted from 0. -/
theorem defaultThresholdIsThirty : Obligations.DefaultThresholdIsThirty := by
  refine ⟨fun index t => by simp, fun index ops s hparams hcnt hops => ?_⟩
  have hT : s.params.threshold = 30 := by simp [hparams]
  obtain ⟨t, hrun, hchange⟩ := execAll_sustainedChange (s := s) (by simp [hcnt, hT]) hops
  refine ⟨hT, t, hrun, ?_⟩
  simpa [Block.SustainedChange, hT, hcnt] using hchange

end Sys2Proof.Machine
end

section
/-! PROOFS. The state of the block (spec R20 to R39): who writes each field, the invariants of R31, and RESET. -/

namespace Sys2Proof.Machine

/-! ### The writers of each field, for one operation (R35, R58) -/

theorem Block.after_time_of_not_tick (p : Params) {i : Instr} (hi : ∀ raw, i ≠ .tick raw) (b : Block) :
    (b.after p i).tbSec = b.tbSec ∧ (b.after p i).tbUsec = b.tbUsec := by
  cases i with
  | tick raw => exact absurd rfl (hi raw)
  | pwmclk => simp [Block.after, Block.pwmCount_eq]
  | setBrightness level =>
    rw [Block.after, Block.setLevel_frame]
    exact ⟨rfl, rfl⟩
  | now | elapsed _ _ | isDown | getBrightness => exact ⟨rfl, rfl⟩

/-- Only `TICK` writes the Time Base and the filter. -/
theorem Block.after_timeAndButton_of_not_tick (p : Params) {i : Instr} (hi : ∀ raw, i ≠ .tick raw) (b : Block) :
    SameTimeAndButton b (b.after p i) := by
  obtain ⟨hsec, husec⟩ := Block.after_time_of_not_tick p hi b
  obtain ⟨hdown, hcnt⟩ := Block.after_filter_of_not_tick p hi b
  exact ⟨hsec, husec, hcnt, hdown⟩

/-- Only `SET_BRIGHTNESS` writes the level, the compare register and the enables. -/
theorem Block.after_levelSettings_of_not_set (p : Params) {i : Instr} (hi : ∀ level, i ≠ .setBrightness level)
    (b : Block) : SameLevelSettings b (b.after p i) := by
  cases i with
  | setBrightness level => exact absurd rfl (hi level)
  | tick raw =>
    rw [Block.after, Block.tick_frame]
    exact ⟨rfl, rfl, rfl, rfl⟩
  | pwmclk => simp [SameLevelSettings, Block.after, Block.pwmCount_eq]
  | now | elapsed _ _ | isDown | getBrightness => exact ⟨rfl, rfl, rfl, rfl⟩

@[simp] theorem Block.after_pwmclk_pwmCnt (p : Params) (b : Block) :
    (b.after p .pwmclk).pwmCnt = b.pwmCnt + 1#8 := by
  simp [Block.after, Block.pwmCount_eq]

/-- Only `PWMCLK` writes the count. -/
theorem Block.after_pwmCnt_of_not_pwmclk (p : Params) {i : Instr} (hi : i ≠ .pwmclk) (b : Block) :
    (b.after p i).pwmCnt = b.pwmCnt := by
  cases i with
  | pwmclk => exact absurd rfl hi
  | tick raw => rw [Block.after, Block.tick_frame]
  | setBrightness level => rw [Block.after, Block.setLevel_frame]
  | now | elapsed _ _ | isDown | getBrightness => rfl

theorem isDimmed_iff (l : Level) : isDimmed l = true ↔ l ≠ levelOff ∧ l ≠ levelFull := by
  simp [isDimmed]

/-- The dimmed levels are 1 to 254 (R16). -/
theorem isDimmed_iff_toNat (l : Level) : isDimmed l = true ↔ 1 ≤ l.toNat ∧ l.toNat ≤ 254 := by
  rw [isDimmed_iff, levelOff, levelFull]
  bv_omega

/-- A dimmed `SET_BRIGHTNESS` leaves the pin (R125). -/
theorem Block.setLevel_lamp_of_isDimmed {l : Level} (hl : isDimmed l = true) (b : Block) :
    (b.setLevel l).lamp = b.lamp := by
  rw [Block.setLevel_lamp, if_pos hl]

/-- Only `PWMCLK` and the levels 0 and 255 write the pin. -/
theorem Block.after_lamp_of_not_writer (p : Params) {i : Instr} (hclk : i ≠ .pwmclk)
    (hoff : i ≠ .setBrightness levelOff) (hfull : i ≠ .setBrightness levelFull) (b : Block) :
    (b.after p i).lamp = b.lamp := by
  cases i with
  | pwmclk => exact absurd rfl hclk
  | tick raw => rw [Block.after, Block.tick_frame]
  | setBrightness level =>
    have hdimmed : isDimmed level = true :=
      (isDimmed_iff level).mpr ⟨fun h => hoff (h ▸ rfl), fun h => hfull (h ▸ rfl)⟩
    exact Block.setLevel_lamp_of_isDimmed hdimmed b
  | now | elapsed _ _ | isDown | getBrightness => rfl

/-- An event that is disarmed does nothing (R128, R129, R153). -/
theorem Block.pwmCount_lamp_of_disarmed {b : Block} (hovf : b.pwmOvfEn = false) (hcmp : b.pwmCmpEn = false) :
    b.pwmCount.lamp = b.lamp := by
  simp [Block.pwmCount_eq, hovf, hcmp]

/-! ### The invariants I1 to I6 (R31) -/

/-- The reset values meet the invariants for every P and T in range. -/
theorem Block.reset_inv (p : Params) : Block.reset.Inv p where
  usec_lt := by decide
  cnt_lt := p.threshold_range.1
  enables_eq := rfl
  armed_iff := by decide
  compare_eq := by decide
  off_dark := by decide
  full_lit := by decide

theorem Block.Inv.disarmed_of_level {p : Params} {b : Block} (hb : b.Inv p)
    (hl : b.brLevel = levelOff ∨ b.brLevel = levelFull) : b.pwmOvfEn = false ∧ b.pwmCmpEn = false := by
  have hovf : b.pwmOvfEn = false := by
    rw [← Bool.not_eq_true, hb.armed_iff]
    tauto
  exact ⟨hovf, hb.enables_eq ▸ hovf⟩

/-- I1 under the Time Base half of `TICK`: P is at most one second, so one carry is enough. -/
theorem Block.tbTick_tbUsec_lt (p : Params) {b : Block} (hb : b.tbUsec.toNat < usecPerSec) :
    (b.tbTick p).tbUsec.toNat < usecPerSec := by
  have hp : p.period ≤ usecPerSec := p.period_range.2
  rw [Block.tbTick_tbUsec_toNat]
  split <;> omega

/-- I2 under the debounce half of `TICK`: a count that would reach T flips and is cleared. -/
theorem Block.dbSample_dbCnt_lt (p : Params) (raw : Bool) (b : Block) :
    (b.dbSample p raw).dbCnt.toNat < p.threshold := by
  have hT := p.threshold_range
  rw [Block.dbSample_dbCnt_toNat]
  split <;> omega

theorem Block.Inv.tick {p : Params} {b : Block} (hb : b.Inv p) (raw : Bool) : (b.tick p raw).Inv p := by
  rw [Block.tick_frame]
  exact { hb with
    usec_lt := Block.tbTick_tbUsec_lt p hb.usec_lt
    cnt_lt := Block.dbSample_dbCnt_lt p raw b }

/-- `PWMCLK` writes the count, which no invariant speaks of, and the pin, which it cannot move at levels 0 and 255,
where both events are disarmed. -/
theorem Block.Inv.pwmCount {p : Params} {b : Block} (hb : b.Inv p) : b.pwmCount.Inv p := by
  have hlamp : b.brLevel = levelOff ∨ b.brLevel = levelFull → b.pwmCount.lamp = b.lamp := by
    intro hl
    obtain ⟨hovf, hcmp⟩ := hb.disarmed_of_level hl
    exact Block.pwmCount_lamp_of_disarmed hovf hcmp
  rw [Block.pwmCount_eq] at hlamp ⊢
  exact { hb with
    off_dark := fun hl => (hlamp (.inl hl)).trans (hb.off_dark hl)
    full_lit := fun hl => (hlamp (.inr hl)).trans (hb.full_lit hl) }

theorem Block.Inv.setLevel {p : Params} {b : Block} (hb : b.Inv p) (l : Level) : (b.setLevel l).Inv p := by
  obtain ⟨hovf, hcmp⟩ := Block.setLevel_enables l b
  exact {
    usec_lt := by rw [Block.setLevel_frame]; exact hb.usec_lt
    cnt_lt := by rw [Block.setLevel_frame]; exact hb.cnt_lt
    enables_eq := hovf.trans hcmp.symm
    armed_iff := by rw [hovf, Block.setLevel_brLevel, isDimmed_iff]
    compare_eq := fun harmed => by
      have hl : isDimmed l = true := hcmp.symm.trans harmed
      have hocr : (b.setLevel l).pwmOcr = l := by rw [Block.setLevel_pwmOcr, if_pos hl]
      rw [hocr, Block.setLevel_brLevel]
      exact ⟨rfl, (isDimmed_iff_toNat l).mp hl⟩
    off_dark := fun hl => by
      rw [Block.setLevel_brLevel] at hl
      simp [Block.setLevel_lamp, isDimmed, hl, levelOff, levelFull]
    full_lit := fun hl => by
      rw [Block.setLevel_brLevel] at hl
      simp [Block.setLevel_lamp, isDimmed, hl] }

theorem Block.Inv.after {p : Params} {b : Block} (hb : b.Inv p) (i : Instr) : (b.after p i).Inv p := by
  cases i with
  | tick raw => exact hb.tick raw
  | pwmclk => exact hb.pwmCount
  | setBrightness level => exact hb.setLevel level
  | now | elapsed _ _ | isDown | getBrightness => exact hb

/-- What a step does to the block: nothing (no word, or an illegal one), RESET, or one operation. -/
theorem step_block_cases {s t : State} (h : step s = .next t) :
    t.block = s.block ∨ t.block = Block.reset ∨ ∃ i, t.block = s.block.after s.params i := by
  obtain ⟨-, hidle⟩ | ⟨pins, rest, -, ⟨-, hreset⟩ | ⟨-, -, -, hidle⟩ |
    ⟨-, p, w, inputs, ties, -, -, -, -, hword⟩⟩ := step_cases s
  · cases hidle.symm.trans h
    exact .inl rfl
  · cases hreset.symm.trans h
    exact .inr (.inl rfl)
  · cases hidle.symm.trans h
    exact .inl rfl
  · obtain ⟨i, -, hlegal⟩ | ⟨why, -, hill⟩ := perform_cases p w { s with inputs := inputs, ties := ties }
    · obtain ⟨o, ho⟩ := exec_spec i { s with inputs := inputs, ties := ties }
      cases (hword.trans (hlegal.trans ho)).symm.trans h
      exact .inr (.inr ⟨i, rfl⟩)
    · cases (hword.trans hill).symm.trans h
      exact .inl rfl

/-- Settles O41: a step leaves the block, resets it or performs one operation on it, and each of these keeps the
invariants. -/
theorem stepKeepsInvariant : Obligations.StepKeepsInvariant := by
  intro s t hs hstep
  rw [State.Inv, step_params hstep]
  obtain hsame | hreset | ⟨i, hafter⟩ := step_block_cases hstep
  · exact hsame ▸ hs
  · exact hreset ▸ Block.reset_inv s.params
  · exact hafter ▸ Block.Inv.after hs i

/-- Settles O43, by induction on the number of steps from the reset values. -/
theorem reachableStatesHaveInvariant : Obligations.ReachableStatesHaveInvariant := by
  intro p inputs k t hrun
  have hstart : State.Inv { State.reset with params := p, inputs := inputs } := Block.reset_inv p
  exact run_keeps stepKeepsInvariant k _ t hstart hrun

/-- Settles O42. -/
theorem resetStateHasInvariant : Obligations.ResetStateHasInvariant :=
  Block.reset_inv Config.params

/-! ### Lists of operations that hold the level (R25, R37) -/

theorem LevelHeld.head {i : Instr} {ops : List Instr} (h : LevelHeld (i :: ops)) (level : Level) :
    i ≠ .setBrightness level := by
  rintro rfl
  exact h _ List.mem_cons_self rfl

theorem LevelHeld.tail {i : Instr} {ops : List Instr} (h : LevelHeld (i :: ops)) : LevelHeld ops :=
  fun j hj => h j (List.mem_cons_of_mem i hj)

theorem Block.afterAll_levelSettings_of_held (p : Params) {ops : List Instr} (hops : LevelHeld ops) (b : Block) :
    SameLevelSettings b (b.afterAll p ops) := by
  induction ops generalizing b with
  | nil => exact ⟨rfl, rfl, rfl, rfl⟩
  | cons i ops ih =>
    obtain ⟨hlevel, hocr, hovf, hcmp⟩ := Block.after_levelSettings_of_not_set p hops.head b
    obtain ⟨hlevel', hocr', hovf', hcmp'⟩ := ih hops.tail (b.after p i)
    exact ⟨hlevel'.trans hlevel, hocr'.trans hocr, hovf'.trans hovf, hcmp'.trans hcmp⟩

@[simp] theorem pwmclkCount_cons_pwmclk (ops : List Instr) : pwmclkCount (.pwmclk :: ops) = pwmclkCount ops + 1 :=
  Nat.add_comm _ _

theorem pwmclkCount_cons_of_not_pwmclk {i : Instr} (hi : i ≠ .pwmclk) (ops : List Instr) :
    pwmclkCount (i :: ops) = pwmclkCount ops := by
  cases i with
  | pwmclk => exact absurd rfl hi
  | _ => simp [pwmclkCount, Instr.operation]

/-- The count is free-running: whatever the operations, it advances by their `PWMCLK` (R29, R127). -/
theorem Block.afterAll_pwmCnt (p : Params) (ops : List Instr) (b : Block) :
    (b.afterAll p ops).pwmCnt.toNat = (b.pwmCnt.toNat + pwmclkCount ops) % 256 := by
  induction ops generalizing b with
  | nil => exact (Nat.mod_eq_of_lt b.pwmCnt.isLt).symm
  | cons i ops ih =>
    rw [Block.afterAll_cons, ih]
    by_cases hi : i = .pwmclk
    · subst hi
      rw [Block.after_pwmclk_pwmCnt, pwmclkCount_cons_pwmclk, BitVec.toNat_add, BitVec.toNat_ofNat]
      omega
    · rw [Block.after_pwmCnt_of_not_pwmclk p hi, pwmclkCount_cons_of_not_pwmclk hi]

theorem Block.after_lamp_of_disarmed (p : Params) {i : Instr} (hi : ∀ level, i ≠ .setBrightness level) {b : Block}
    (hovf : b.pwmOvfEn = false) (hcmp : b.pwmCmpEn = false) : (b.after p i).lamp = b.lamp := by
  by_cases hclk : i = .pwmclk
  · subst hclk
    exact Block.pwmCount_lamp_of_disarmed hovf hcmp
  · exact Block.after_lamp_of_not_writer p hclk (hi _) (hi _) b

theorem Block.afterAll_lamp_of_disarmed (p : Params) {ops : List Instr} (hops : LevelHeld ops) {b : Block}
    (hovf : b.pwmOvfEn = false) (hcmp : b.pwmCmpEn = false) : (b.afterAll p ops).lamp = b.lamp := by
  induction ops generalizing b with
  | nil => rfl
  | cons i ops ih =>
    obtain ⟨-, -, hovf', hcmp'⟩ := Block.after_levelSettings_of_not_set p hops.head b
    calc ((b.after p i).afterAll p ops).lamp
      _ = (b.after p i).lamp := ih hops.tail (hovf'.trans hovf) (hcmp'.trans hcmp)
      _ = b.lamp := Block.after_lamp_of_disarmed p hops.head hovf hcmp

@[simp] theorem zextLevel_toNat (l : Level) : (zextLevel l).toNat = l.toNat :=
  BitVec.toNat_setWidth_of_le (by decide)

/-- Settles O30: operations that hold the level leave `br_level` at what `SET_BRIGHTNESS` wrote. -/
theorem getBrightnessReturnsLastLevelSet : Obligations.GetBrightnessReturnsLastLevelSet := by
  intro level ops s hops
  obtain ⟨o, ho⟩ := execAll_spec ops ((s.withBlock (s.block.setLevel level)).respond 0#64)
  obtain ⟨hlevel, -, -, -⟩ := Block.afterAll_levelSettings_of_held s.params hops (s.block.setLevel level)
  refine ⟨_, _, _, _, rfl, ho, rfl, rfl, ?_⟩
  calc (zextLevel ((s.block.setLevel level).afterAll s.params ops).brLevel).toNat
    _ = ((s.block.setLevel level).afterAll s.params ops).brLevel.toNat := zextLevel_toNat _
    _ = level.toNat := by rw [hlevel, Block.setLevel_brLevel]

/-- Settles O32: with the level held the enables stay 0, so no event moves the pin; arming with a dimmed level leaves
the pin as it finds it. -/
theorem disarmedEventsAreLost : Obligations.DisarmedEventsAreLost := by
  intro level ops s hovf hcmp hops
  obtain ⟨o, ho⟩ := execAll_spec ops s
  have hlamp := Block.afterAll_lamp_of_disarmed s.params hops hovf hcmp
  refine ⟨_, _, ho, hlamp, Block.afterAll_pwmCnt s.params ops s.block, rfl, fun hlo hhi => ?_⟩
  exact (Block.setLevel_lamp_of_isDimmed ((isDimmed_iff_toNat level).mpr ⟨hlo, hhi⟩) _).trans hlamp

/-! ### RESET (R39, R175, R176) -/

theorem step_of_reset {s : State} {pins : Pins} {rest : List Pins} (hinputs : s.inputs = pins :: rest)
    (hpins : pins.reset = true) : step s = .next (s.withInputs rest).resetEvent := by
  obtain ⟨hnil, -⟩ | ⟨pins', rest', hcons, hcases⟩ := step_cases s
  · cases hnil.symm.trans hinputs
  · cases hcons.symm.trans hinputs
    obtain ⟨-, hreset⟩ | ⟨hno, -⟩ | ⟨hno, -⟩ := hcases
    · exact hreset
    · cases hno.symm.trans hpins
    · cases hno.symm.trans hpins

/-- Settles O11. -/
theorem resetEventClearsBlock : Obligations.ResetEventClearsBlock :=
  fun _ _ _ hinputs hpins => step_of_reset hinputs hpins

/-- Settles O12: the reset values as R39 and R176 list them. -/
theorem resetStateIsAllZero : Obligations.ResetStateIsAllZero := rfl

/-! ### Single writers (R35, R58) -/

/-- Settles O17. -/
theorem tickWritesOnlyTimeAndButton : Obligations.TickWritesOnlyTimeAndButton := by
  intro raw s
  refine ⟨_, rfl, ?_⟩
  simp only [State.quiet_block, State.withBlock_block, Block.tick_tbSec, Block.tick_tbUsec, Block.tick_dbCnt,
    Block.tick_dbDown, ← Block.tick_frame]
  rfl

/-- Settles O38, by the writers of each field. -/
theorem singleWriterPerField : Obligations.SingleWriterPerField := by
  intro i s
  obtain ⟨o, ho⟩ := exec_spec i s
  exact ⟨_, ho, ⟨rfl, rfl, rfl⟩, fun hi => Block.after_timeAndButton_of_not_tick s.params hi s.block,
    fun hi => Block.after_levelSettings_of_not_set s.params hi s.block,
    fun hi => Block.after_pwmCnt_of_not_pwmclk s.params hi s.block,
    fun hclk hoff hfull => Block.after_lamp_of_not_writer s.params hclk hoff hfull s.block⟩

end Sys2Proof.Machine
end

section
/-! PROOFS. Atomicity and order (spec R55 to R59): a step performs what is presented, which operations commute, and
which may be repeated. -/

namespace Sys2Proof.Machine

/-! ### One step on each kind of presentation (R57, R67) -/

theorem step_of_no_inputs {s : State} (hinputs : s.inputs = []) : step s = .next s.quiet := by
  simp only [step, performNext, hinputs]

theorem step_of_inputs {s : State} {pins : Pins} {rest : List Pins} (hinputs : s.inputs = pins :: rest) :
    step s = performPins pins rest s := by
  simp only [step, performNext, hinputs]

theorem step_of_presentWord {p : Port} {w : OpWord} {s : State} {rest : List Pins}
    (hinputs : s.inputs = presentWord p w :: rest) : step s = perform p w (s.withInputs rest) := by
  rw [step_of_inputs hinputs]
  cases p <;> rfl

theorem perform_of_operation {p : Port} {w : OpWord} {i : Instr} (hw : decode p w = .operation i) (s : State) :
    perform p w s = exec i s := by
  simp only [perform, hw]

/-- Settles O7: a word presented alone is performed, and performing a legal word is its `exec`. -/
theorem stepRunsDecodedOperation : Obligations.StepRunsDecodedOperation :=
  fun _ _ _ s rest hinputs hw => (step_of_presentWord hinputs).trans (perform_of_operation hw (s.withInputs rest))

/-- Settles O9, by the two kinds of presentation without a word. -/
theorem stepWithoutWordIsIdle : Obligations.StepWithoutWordIsIdle :=
  ⟨fun _ hinputs => step_of_no_inputs hinputs, fun _ _ hinputs => step_of_inputs hinputs⟩

/-- Settles O10: the free value `Config.commandFirst` decides which of the two orders it is. -/
theorem simultaneousWordsAreSerialised : Obligations.SimultaneousWordsAreSerialised := by
  intro s ev cmd rest hinputs
  have hstep : step s = performOneOf ev cmd rest s := step_of_inputs hinputs
  rw [hstep, performOneOf]
  split
  · exact .inr rfl
  · exact .inl rfl

/-! ### What an operation returns -/

/-- The response of an operation performed on a block (R66): none for an event. -/
def Block.responseTo (i : Instr) (b : Block) : Option Response :=
  match i with
  | .tick _ => none
  | .pwmclk => none
  | .now => some (packInstant b.instant)
  | .elapsed sinceSec sinceUsec => some (zextTime (b.elapsedSince ⟨sinceSec, sinceUsec⟩))
  | .isDown => some (zextBool b.dbDown)
  | .setBrightness _ => some 0#64
  | .getBrightness => some (zextLevel b.brLevel)

/-- An operation as a whole: `Block.after` is what it does to the block, `Block.responseTo` what it returns. -/
theorem exec_eq (i : Instr) (s : State) :
    exec i s = .next { s with
      block := s.block.after s.params i, out := ⟨s.block.responseTo i, false, false⟩ } := by
  cases i <;> rfl

theorem execAll_pair (i j : Instr) (s : State) :
    execAll [i, j] s = .next { s with
      block := (s.block.after s.params i).after s.params j
      out := ⟨(s.block.after s.params i).responseTo j, false, false⟩ } := by
  simp only [execAll, exec_eq]

/-- The reads of the Time Base and the button: the reads but `GET_BRIGHTNESS`. -/
def ReadsTimeOrButton (i : Instr) : Prop :=
  i = .now ∨ (∃ sec usec, i = .elapsed sec usec) ∨ i = .isDown

theorem Block.after_of_readsTimeOrButton {i : Instr} (hi : ReadsTimeOrButton i) (p : Params) (b : Block) :
    b.after p i = b := by
  obtain rfl | ⟨_, _, rfl⟩ | rfl := hi <;> rfl

theorem Block.responseTo_of_sameTimeAndButton {i : Instr} (hi : ReadsTimeOrButton i) {b c : Block}
    (hbc : SameTimeAndButton b c) : c.responseTo i = b.responseTo i := by
  obtain ⟨hsec, husec, -, hdown⟩ := hbc
  obtain rfl | ⟨_, _, rfl⟩ | rfl := hi
  · simp only [Block.responseTo, Block.instant, hsec, husec]
  · simp only [Block.responseTo, Block.elapsedSince, hsec, husec]
  · simp only [Block.responseTo, hdown]

theorem Block.responseTo_getBrightness_of_sameLevelSettings {b c : Block} (hbc : SameLevelSettings b c) :
    c.responseTo .getBrightness = b.responseTo .getBrightness := by
  obtain ⟨hlevel, -, -, -⟩ := hbc
  simp only [Block.responseTo, hlevel]

/-! ### TICK against the operations that are not TICK (R59)

The two sides of the block do not meet: `TICK` reads and writes the Time Base and the filter, every other operation
writes only the brightness side and computes it from the brightness side. -/

/-- The brightness side of `b` with the Time Base and the filter of `c`. -/
def Block.withTimeAndButton (b c : Block) : Block :=
  { b with tbSec := c.tbSec, tbUsec := c.tbUsec, dbCnt := c.dbCnt, dbDown := c.dbDown }

theorem Block.withTimeAndButton_congr (b : Block) {c d : Block} (hcd : SameTimeAndButton c d) :
    b.withTimeAndButton d = b.withTimeAndButton c := by
  obtain ⟨hsec, husec, hcnt, hdown⟩ := hcd
  simp only [Block.withTimeAndButton, hsec, husec, hcnt, hdown]

/-- `TICK` leaves the brightness side. -/
theorem Block.withTimeAndButton_tick (p : Params) (raw : Bool) (b : Block) :
    b.withTimeAndButton (b.tick p raw) = b.tick p raw := by
  rw [Block.tick_frame]
  rfl

/-- `TICK` reads the Time Base and the filter only. -/
theorem Block.tick_sameTimeAndButton (p : Params) (raw : Bool) {b c : Block} (hbc : SameTimeAndButton b c) :
    SameTimeAndButton (b.tick p raw) (c.tick p raw) := by
  obtain ⟨hsec, husec, hcnt, hdown⟩ := hbc
  obtain ⟨hcnt', hdown'⟩ := Block.dbSample_congr p raw c b hcnt hdown
  refine ⟨?_, BitVec.eq_of_toNat_eq ?_, by simpa using hcnt', by simpa using hdown'⟩
  · simp only [Block.tick_tbSec, Block.tbTick_tbSec, hsec, husec]
  · simp only [Block.tick_tbUsec, Block.tbTick_tbUsec_toNat, husec]

/-- An operation that is no `TICK` neither reads nor writes the Time Base and the filter of the block it changes. -/
theorem Block.after_withTimeAndButton (p : Params) {i : Instr} (hi : ∀ raw, i ≠ .tick raw) (b c : Block) :
    (b.withTimeAndButton c).after p i = (b.after p i).withTimeAndButton c := by
  cases i with
  | tick raw => exact absurd rfl (hi raw)
  | pwmclk =>
    simp only [Block.after, Block.pwmCount_eq]
    rfl
  | setBrightness level =>
    simp only [Block.after, Block.setLevel]
    split
    · rfl
    · split <;> rfl
  | now | elapsed _ _ | isDown | getBrightness => rfl

/-- In the block, `TICK` commutes with every operation that is no `TICK`. -/
theorem Block.after_tick_comm (p : Params) (raw : Bool) {i : Instr} (hi : ∀ raw, i ≠ .tick raw) (b : Block) :
    (b.after p (.tick raw)).after p i = (b.after p i).after p (.tick raw) := by
  have hsame := Block.tick_sameTimeAndButton p raw (Block.after_timeAndButton_of_not_tick p hi b)
  calc (b.tick p raw).after p i
    _ = (b.withTimeAndButton (b.tick p raw)).after p i := by rw [Block.withTimeAndButton_tick]
    _ = (b.after p i).withTimeAndButton (b.tick p raw) := Block.after_withTimeAndButton p hi _ _
    _ = (b.after p i).withTimeAndButton ((b.after p i).tick p raw) := (Block.withTimeAndButton_congr _ hsame).symm
    _ = (b.after p i).tick p raw := Block.withTimeAndButton_tick p raw _

/-! ### TICK moves the time (R91, R93) -/

/-- One `TICK` advances every `ELAPSED` by P, modulo 2^32, with or without the carry. -/
theorem Block.elapsedSince_tick (p : Params) (raw : Bool) (b : Block) (since : Instant) :
    (b.tick p raw).elapsedSince since = b.elapsedSince since + BitVec.ofNat 32 p.period := by
  have husec := Block.tbTick_tbUsec_toNat p b
  have hsec := Block.tbTick_tbSec p b
  simp only [Block.elapsedSince, Block.tick_tbSec, Block.tick_tbUsec]
  split at husec
  next hcarry =>
    rw [if_pos hcarry] at hsec
    have husec' : (b.tbTick p).tbUsec = b.tbUsec + BitVec.ofNat 32 p.period - BitVec.ofNat 32 usecPerSec := by
      bv_omega
    have hone : (1#32 : Time32) = 1 := rfl
    rw [hsec, husec', hone]
    ring
  next hcarry =>
    rw [if_neg hcarry] at hsec
    have husec' : (b.tbTick p).tbUsec = b.tbUsec + BitVec.ofNat 32 p.period := by
      bv_omega
    rw [hsec, husec']
    ring

theorem Block.elapsedSince_tick_ne (p : Params) (raw : Bool) (b : Block) (since : Instant) :
    (b.tick p raw).elapsedSince since ≠ b.elapsedSince since := by
  obtain ⟨hlo, hhi⟩ := p.period_range
  rw [Block.elapsedSince_tick]
  bv_omega

/-- P is at least 1, so no `TICK` leaves the Time Base as it was: the same pair would answer the same `ELAPSED`. -/
theorem Block.instant_tick_ne (p : Params) (raw : Bool) (b : Block) : (b.tick p raw).instant ≠ b.instant := by
  intro h
  obtain ⟨hsec, husec⟩ := Instant.mk.inj h
  exact Block.elapsedSince_tick_ne p raw b b.instant (by simp only [Block.elapsedSince, hsec, husec])

/-! ### Commuting operations (R59) -/

theorem commuteAt_iff (i j : Instr) (s : State) :
    CommuteAt i j s ↔
      (s.block.after s.params i).after s.params j = (s.block.after s.params j).after s.params i ∧
      s.block.responseTo i = (s.block.after s.params j).responseTo i ∧
      (s.block.after s.params i).responseTo j = s.block.responseTo j := by
  simp [CommuteAt, exec_eq]

/-- An operation and a read that it does not disturb. -/
theorem commuteAt_of_read {i j : Instr} {s : State} (hread : ∀ b : Block, b.after s.params j = b)
    (hresponse : (s.block.after s.params i).responseTo j = s.block.responseTo j) : CommuteAt i j s := by
  simp only [commuteAt_iff, hread, hresponse, and_self]

theorem commuteAt_of_readsTimeOrButton {i j : Instr} (hi : ∀ raw, i ≠ .tick raw) (hj : ReadsTimeOrButton j)
    (s : State) : CommuteAt i j s :=
  commuteAt_of_read (Block.after_of_readsTimeOrButton hj s.params)
    (Block.responseTo_of_sameTimeAndButton hj (Block.after_timeAndButton_of_not_tick s.params hi s.block))

theorem commuteAt_getBrightness {i : Instr} (hi : ∀ level, i ≠ .setBrightness level) (s : State) :
    CommuteAt i .getBrightness s :=
  commuteAt_of_read (fun _ => rfl) (Block.responseTo_getBrightness_of_sameLevelSettings
    (Block.after_levelSettings_of_not_set s.params hi s.block))

theorem commuteAt_tick_setBrightness (raw : Bool) (level : Level) (s : State) :
    CommuteAt (.tick raw) (.setBrightness level) s :=
  (commuteAt_iff _ _ _).mpr ⟨Block.after_tick_comm s.params raw (by simp) s.block, rfl, rfl⟩

theorem execAll_tick_pwmclk_comm (raw : Bool) (s : State) :
    execAll [.tick raw, .pwmclk] s = execAll [.pwmclk, .tick raw] s := by
  simp only [execAll_pair, Block.after_tick_comm s.params raw (i := .pwmclk) (by simp), Block.responseTo]

theorem packInstant_injective : Function.Injective packInstant :=
  Function.LeftInverse.injective unpackInstant_packInstant

theorem not_commuteAt_tick_now (raw : Bool) (s : State) : ¬ CommuteAt (.tick raw) .now s := by
  intro h
  obtain ⟨-, -, hresponse⟩ := (commuteAt_iff _ _ _).mp h
  exact Block.instant_tick_ne s.params raw s.block (packInstant_injective (Option.some.inj hresponse))

theorem zextTime_injective : Function.Injective zextTime := by
  intro t u h
  have hnat := congrArg BitVec.toNat h
  simp only [zextTime, BitVec.toNat_setWidth_of_le (show 32 ≤ 64 by decide)] at hnat
  exact BitVec.eq_of_toNat_eq hnat

theorem not_commuteAt_tick_elapsed (raw : Bool) (sec usec : Time32) (s : State) :
    ¬ CommuteAt (.tick raw) (.elapsed sec usec) s := by
  intro h
  obtain ⟨-, -, hresponse⟩ := (commuteAt_iff _ _ _).mp h
  exact Block.elapsedSince_tick_ne s.params raw s.block ⟨sec, usec⟩
    (zextTime_injective (Option.some.inj hresponse))

/-- With `T = 1` one `TICK` publishes its sample, so `IS_DOWN` sees which of the two came first. -/
theorem not_commuteAt_tick_isDown :
    ¬ CommuteAt (.tick true) .isDown { State.reset with params := { period := 1, threshold := 1 } } := by
  intro h
  obtain ⟨-, -, hresponse⟩ := (commuteAt_iff _ _ _).mp h
  exact absurd hresponse (by decide)

/-- At count 255 the next `PWMCLK` overflows: it lights the pin only if `SET_BRIGHTNESS` has armed the event. -/
theorem not_commuteAt_pwmclk_setBrightness :
    ¬ CommuteAt .pwmclk (.setBrightness 1#8) { State.reset with block := { Block.reset with pwmCnt := 255#8 } } := by
  intro h
  obtain ⟨hblock, -, -⟩ := (commuteAt_iff _ _ _).mp h
  exact absurd (congrArg Block.lamp hblock) (by decide)

/-- Settles O36: operations that write on different sides of the block commute, and a `TICK` is seen by every read of
the time. -/
theorem commutingOperations : Obligations.CommutingOperations := by
  refine ⟨fun raw s => ?_, fun s => ?_, fun raw s => ?_, ⟨_, _, not_commuteAt_tick_isDown⟩,
    ⟨_, _, not_commuteAt_pwmclk_setBrightness⟩⟩
  · exact ⟨execAll_tick_pwmclk_comm raw s, fun level => commuteAt_tick_setBrightness raw level s,
      commuteAt_getBrightness (by simp) s⟩
  · have hread : ∀ j, ReadsTimeOrButton j → CommuteAt .pwmclk j s := fun j hj =>
      commuteAt_of_readsTimeOrButton (by simp) hj s
    exact ⟨hread _ (.inl rfl), fun sec usec => hread _ (.inr (.inl ⟨sec, usec, rfl⟩)), hread _ (.inr (.inr rfl)),
      commuteAt_getBrightness (by simp) s⟩
  · exact ⟨not_commuteAt_tick_now raw s, fun sec usec => not_commuteAt_tick_elapsed raw sec usec s⟩

/-! ### Repeated operations (R56) -/

theorem Block.afterAll_sameTimeAndButton_of_no_tick (p : Params) {ops : List Instr} (hops : tickCount ops = 0)
    (b : Block) : SameTimeAndButton b (b.afterAll p ops) := by
  induction ops generalizing b with
  | nil => exact ⟨rfl, rfl, rfl, rfl⟩
  | cons i ops ih =>
    have hi : ∀ raw, i ≠ .tick raw := by
      rintro raw rfl
      simp at hops
    rw [tickCount_cons_of_not_tick hi] at hops
    obtain ⟨hsec, husec, hcnt, hdown⟩ := Block.after_timeAndButton_of_not_tick p hi b
    obtain ⟨hsec', husec', hcnt', hdown'⟩ := ih hops (b.after p i)
    exact ⟨hsec'.trans hsec, husec'.trans husec, hcnt'.trans hcnt, hdown'.trans hdown⟩

/-- A read repeated after operations that leave what it reads. -/
theorem response_repeats {i : Instr} {ops : List Instr} {s : State}
    (hresponse : ((s.block.after s.params i).afterAll s.params ops).responseTo i = s.block.responseTo i) :
    ∃ t u v, exec i s = .next t ∧ execAll ops t = .next u ∧ exec i u = .next v ∧ v.out.rsp = t.out.rsp := by
  obtain ⟨o, ho⟩ := execAll_spec ops { s with
    block := s.block.after s.params i, out := ⟨s.block.responseTo i, false, false⟩ }
  exact ⟨_, _, _, exec_eq i s, ho, exec_eq i _, hresponse⟩

theorem Block.setLevel_idem (l : Level) (b : Block) : (b.setLevel l).setLevel l = b.setLevel l := by
  simp only [Block.setLevel]
  split
  · rfl
  · split <;> rfl

/-- An operation performed twice leaves what one leaves only if it leaves its own result alone. -/
theorem after_after_of_execAll_pair {i : Instr} {s : State} (h : execAll [i, i] s = exec i s) :
    (s.block.after s.params i).after s.params i = s.block.after s.params i := by
  rw [execAll_pair, exec_eq] at h
  injection h with hstate
  exact congrArg State.block hstate

/-- Settles O37: a read answers from fields that only `TICK` or only `SET_BRIGHTNESS` writes, a level once set is set,
and the time and the PWM count move at every `TICK` and every `PWMCLK`. -/
theorem readsHaveNoSideEffect : Obligations.ReadsHaveNoSideEffect := by
  refine ⟨?_, fun i ops s hi hops => ?_, fun ops s hops => ?_, fun level s => ?_, fun raw s h => ?_, fun s h => ?_⟩
  · rintro i s (rfl | ⟨sec, usec, rfl⟩ | rfl | rfl) <;> exact ⟨_, rfl⟩
  · apply response_repeats
    rw [Block.after_of_readsTimeOrButton hi]
    exact Block.responseTo_of_sameTimeAndButton hi (Block.afterAll_sameTimeAndButton_of_no_tick s.params hops s.block)
  · exact response_repeats (Block.responseTo_getBrightness_of_sameLevelSettings
      (Block.afterAll_levelSettings_of_held s.params hops s.block))
  · rw [execAll_pair, exec_eq]
    simp only [Block.after, Block.setLevel_idem, Block.responseTo]
  · exact Block.instant_tick_ne s.params raw (s.block.tick s.params raw)
      (congrArg Block.instant (after_after_of_execAll_pair h))
  · have hcnt := congrArg Block.pwmCnt (after_after_of_execAll_pair h)
    simp at hcnt

end Sys2Proof.Machine
end

section
/-! PROOFS. Encoding and decoding (spec R65 to R76): the argument of each format, the rows of the opcode table, illegal
words, and what each port may do to the block. -/

namespace Sys2Proof

open Sys2Proof.Machine

/-! ### Words, arguments and operands as numbers (R65, R68, R69) -/

theorem wordOf_toNat (op : Opcode) (arg : Arg) : (wordOf op arg).toNat = op.toNat * 2 ^ 64 + arg.toNat := by
  rw [wordOf, BitVec.toNat_append, ← Nat.shiftLeft_add_eq_or_of_lt arg.isLt, Nat.shiftLeft_eq]

theorem packInstant_toNat (t : Instant) : (packInstant t).toNat = t.sec.toNat * 2 ^ 32 + t.usec.toNat := by
  rw [packInstant, BitVec.toNat_append, ← Nat.shiftLeft_add_eq_or_of_lt t.usec.isLt, Nat.shiftLeft_eq]

@[simp] theorem zextBool_toNat (b : Bool) : (zextBool b).toNat = b.toNat := by
  cases b <;> rfl

theorem rawOf_toNat (arg : Arg) : (rawOf arg).toNat = arg.toNat % 2 := by
  rw [rawOf, BitVec.getLsbD, Nat.toNat_testBit, pow_zero, Nat.div_one]

theorem levelOf_toNat (arg : Arg) : (levelOf arg).toNat = arg.toNat % 256 := by
  rw [levelOf, BitVec.extractLsb'_toNat, Nat.shiftRight_zero]

/-- How many low bits of the argument a format uses for its operands (R68). -/
def Format.operandBits : Format → Nat
  | .z => 0
  | .b => 1
  | .l => 8
  | .i => 64

/-- The masks of R68 are the bits above the operands. -/
theorem Format.mustBeZero_eq (f : Format) : f.mustBeZero = BitVec.allOnes 64 <<< f.operandBits := by
  cases f <;> decide

/-- An argument is legal in a format exactly when its operand bits hold all of it (R68, R72 (b)). -/
theorem Format.and_mustBeZero_eq_zero_iff (f : Format) (arg : Arg) :
    arg &&& f.mustBeZero = 0#64 ↔ arg.toNat < 2 ^ f.operandBits := by
  have hle : arg.toNat / 2 ^ f.operandBits * 2 ^ f.operandBits < 2 ^ 64 :=
    (Nat.div_mul_le_self _ _).trans_lt arg.isLt
  rw [f.mustBeZero_eq, ← BitVec.shiftLeft_ushiftRight, ← BitVec.toNat_inj, BitVec.toNat_shiftLeft,
    BitVec.toNat_ushiftRight, Nat.shiftLeft_eq, Nat.shiftRight_eq_div_pow, Nat.mod_eq_of_lt hle]
  simp [Nat.div_eq_zero_iff]

/-! ### Decoding inverts encoding (R70, R74) -/

@[simp] theorem argOf_encode (i : Instr) : argOf (encode i) = i.arg :=
  argOf_wordOf _ _

theorem encode_toNat (i : Instr) : (encode i).toNat = i.operation.opcode.toNat * 2 ^ 64 + i.arg.toNat :=
  wordOf_toNat _ _

/-- The operands of an operation fit in the operand bits of its format. -/
theorem Instr.arg_toNat_lt (i : Instr) : i.arg.toNat < 2 ^ i.operation.format.operandBits := by
  cases i with
  | tick raw => exact (zextBool_toNat raw).trans_lt raw.toNat_lt
  | elapsed sec usec => exact BitVec.isLt _
  | setBrightness level => exact (zextLevel_toNat level).trans_lt level.isLt
  | pwmclk | now | isDown | getBrightness => decide

/-- The operands an operation's argument carries are its own. -/
@[simp] theorem assemble_arg (i : Instr) : assemble i.operation i.arg = i := by
  cases i <;> simp [Instr.operation, Instr.arg, assemble]

/-- An argument that fits in its format carries nothing but the operands taken from it. -/
theorem arg_assemble {o : Operation} {arg : Arg} (harg : arg.toNat < 2 ^ o.format.operandBits) :
    (assemble o arg).arg = arg := by
  refine BitVec.eq_of_toNat_eq ?_
  cases o with
  | tick => exact (zextBool_toNat _).trans ((rawOf_toNat arg).trans (Nat.mod_eq_of_lt harg))
  | elapsed => exact congrArg BitVec.toNat (packInstant_unpackInstant arg)
  | setBrightness => exact (zextLevel_toNat _).trans ((levelOf_toNat arg).trans (Nat.mod_eq_of_lt harg))
  | pwmclk | now | isDown | getBrightness => exact (Nat.lt_one_iff.mp harg).symm

@[simp] theorem operation_assemble (o : Operation) (arg : Arg) : (assemble o arg).operation = o := by
  cases o <;> rfl

theorem decode_encode (i : Instr) : decode i.port (encode i) = .operation i := by
  refine decode_eq_operation.mpr ⟨i.operation, (opcodeOf_encode i).symm, rfl, ?_, ?_⟩
  · rw [argOf_encode, Format.and_mustBeZero_eq_zero_iff]
    exact i.arg_toNat_lt
  · rw [argOf_encode, assemble_arg]

/-- Settles O1. -/
theorem decodeInvertsEncode : Obligations.DecodeInvertsEncode :=
  decode_encode

theorem encode_of_decode {p : Port} {w : OpWord} {i : Instr} (h : decode p w = .operation i) : encode i = w := by
  obtain ⟨o, hop, -, hzero, rfl⟩ := decode_eq_operation.mp h
  rw [encode, operation_assemble, arg_assemble ((Format.and_mustBeZero_eq_zero_iff _ _).mp hzero), hop,
    wordOf_opcodeOf_argOf]

theorem port_of_decode {p : Port} {w : OpWord} {i : Instr} (h : decode p w = .operation i) : i.port = p := by
  obtain ⟨o, -, hport, -, rfl⟩ := decode_eq_operation.mp h
  rw [Instr.port, operation_assemble, hport]

/-- Settles O2. -/
theorem legalWordIsItsEncoding : Obligations.LegalWordIsItsEncoding :=
  fun _ _ _ h => ⟨encode_of_decode h, port_of_decode h⟩

/-- Settles O4: each of the words is the encoding of the operation the spec lists for it. -/
theorem specWordsDecode : Obligations.SpecWordsDecode :=
  ⟨decode_encode (.tick false), decode_encode (.tick true), decode_encode .pwmclk, decode_encode .now,
    decode_encode (.elapsed 1#32 500000#32), decode_encode .isDown, decode_encode (.setBrightness 128#8),
    decode_encode .getBrightness⟩

/-- Settles O5, from the argument of each format as a number. -/
theorem encodedWordAsNumber : Obligations.EncodedWordAsNumber := by
  refine ⟨fun raw => ?_, encode_toNat .pwmclk, encode_toNat .now, fun sec usec => ?_, encode_toNat .isDown,
    fun level => ?_, encode_toNat .getBrightness⟩
  · rw [encode_toNat, Instr.arg, zextBool_toNat]
    rfl
  · rw [encode_toNat, Instr.arg, packInstant_toNat, ← Nat.add_assoc]
    rfl
  · rw [encode_toNat, Instr.arg, zextLevel_toNat]
    rfl

/-! ### The rows of the opcode table (R74) -/

theorem Operation.opcode_injective : Function.Injective Operation.opcode := fun o q h => by
  have hsome : operationOf o.opcode = some q := operationOf_eq_some.mpr h.symm
  exact Option.some.inj ((operationOf_eq_some.mpr rfl).symm.trans hsome)

/-- The row R74 derives from an operation: every opcode bit and every "must be 0" bit of the format is compared. -/
def Operation.row (o : Operation) : Row :=
  ⟨o, o.port, wordOf o.opcode 0#64, wordOf 0xFF#8 o.format.mustBeZero⟩

theorem mem_opcodeTable_iff {r : Row} : r ∈ opcodeTable ↔ ∃ o : Operation, r = o.row := by
  have htable : opcodeTable = [Operation.tick.row, Operation.pwmclk.row, Operation.now.row, Operation.elapsed.row,
      Operation.isDown.row, Operation.setBrightness.row, Operation.getBrightness.row] := by decide
  rw [htable]
  constructor
  · intro hr
    simp only [List.mem_cons, List.not_mem_nil, or_false] at hr
    obtain h | h | h | h | h | h | h := hr <;> exact ⟨_, h⟩
  · rintro ⟨o, rfl⟩
    cases o <;> simp

/-- What a row compares: the opcode and the "must be 0" bits of the format. -/
theorem Operation.row_matches_iff (o : Operation) (w : OpWord) :
    w &&& o.row.mask = o.row.pattern ↔ o.opcode = opcodeOf w ∧ argOf w &&& o.format.mustBeZero = 0#64 := by
  have hones : (0xFF#8 : Opcode) = BitVec.allOnes 8 := rfl
  calc w &&& o.row.mask = o.row.pattern
    _ ↔ wordOf (opcodeOf w) (argOf w) &&& wordOf 0xFF#8 o.format.mustBeZero = wordOf o.opcode 0#64 := by
      rw [wordOf_opcodeOf_argOf]
      rfl
    _ ↔ o.opcode = opcodeOf w ∧ argOf w &&& o.format.mustBeZero = 0#64 := by
      rw [wordOf_and, wordOf_inj, hones, BitVec.and_allOnes, eq_comm (a := opcodeOf w)]

theorem decode_eq_operation_iff_row {p : Port} {w : OpWord} {i : Instr} :
    decode p w = .operation i ↔
      ∃ o : Operation, o.row.port = p ∧ w &&& o.row.mask = o.row.pattern ∧ i = assemble o (argOf w) := by
  simp only [decode_eq_operation, Operation.row_matches_iff]
  exact exists_congr fun o => ⟨fun ⟨hop, hport, hzero, hi⟩ => ⟨hport, ⟨hop, hzero⟩, hi⟩,
    fun ⟨hport, ⟨hop, hzero⟩, hi⟩ => ⟨hop, hport, hzero, hi⟩⟩

/-- Settles O3: the rows compare what the decoder tests, and two rows that match one word share its opcode. -/
theorem decoderFollowsOpcodeTable : Obligations.DecoderFollowsOpcodeTable := by
  refine fun p w => ⟨fun r hr hport hmatch => ?_, fun hnone => ?_, fun r hr q hq _ _ hrmatch hqmatch => ?_, rfl⟩
  · obtain ⟨o, rfl⟩ := mem_opcodeTable_iff.mp hr
    exact decode_eq_operation_iff_row.mpr ⟨o, hport, hmatch, rfl⟩
  · cases hw : decode p w with
    | illegal why => exact ⟨why, rfl⟩
    | operation i =>
      obtain ⟨o, hport, hmatch, -⟩ := decode_eq_operation_iff_row.mp hw
      exact absurd ⟨hport, hmatch⟩ (hnone o.row (mem_opcodeTable_iff.mpr ⟨o, rfl⟩))
  · obtain ⟨o, rfl⟩ := mem_opcodeTable_iff.mp hr
    obtain ⟨o', rfl⟩ := mem_opcodeTable_iff.mp hq
    obtain ⟨hop, -⟩ := (Operation.row_matches_iff o w).mp hrmatch
    obtain ⟨hop', -⟩ := (Operation.row_matches_iff o' w).mp hqmatch
    rw [Operation.opcode_injective (hop.trans hop'.symm)]

/-! ### Illegal words (R72) -/

/-- The decoder refuses a word exactly on the three grounds of R72. -/
theorem illegalWord_iff {p : Port} {w : OpWord} : IllegalWord p w ↔ ∃ why, decode p w = .illegal why := by
  constructor
  · intro hill
    cases hw : decode p w with
    | illegal why => exact ⟨why, rfl⟩
    | operation i =>
      obtain ⟨o, hop, hport, hzero, -⟩ := decode_eq_operation.mp hw
      obtain hreserved | ⟨o', hop', hbits⟩ | ⟨o', hop', hwrong⟩ := hill
      · exact absurd hop (hreserved o)
      · cases Operation.opcode_injective (hop'.trans hop.symm)
        exact absurd hzero hbits
      · cases Operation.opcode_injective (hop'.trans hop.symm)
        exact absurd hport hwrong
  · rintro ⟨why, hw⟩
    by_contra hlegal
    simp only [IllegalWord, not_or, not_forall, not_exists, not_and, ne_eq, not_not] at hlegal
    obtain ⟨⟨o, hop⟩, hzero, hport⟩ := hlegal
    cases hw.symm.trans (decode_eq_operation.mpr ⟨o, hop, hport o hop, hzero o hop, rfl⟩)

/-- The word presented on a port (R67). -/
def Pins.word (pins : Pins) : Port → Option OpWord
  | .ev => pins.ev
  | .cmd => pins.cmd

end Sys2Proof

namespace Sys2Proof.Machine

/-! ### One performed word (R66, R72) -/

/-- The illegal flag of a port (R72). -/
def Outputs.flag (o : Outputs) : Port → Bool
  | .ev => o.evIll
  | .cmd => o.cmdIll

theorem Outputs.illegal_flag (p q : Port) : (Outputs.illegal p).flag q = decide (p = q) := by
  cases p <;> cases q <;> rfl

theorem Outputs.flag_of_legal (rsp : Option Response) (q : Port) : Outputs.flag ⟨rsp, false, false⟩ q = false := by
  cases q <;> rfl

theorem Outputs.illegal_rsp_isSome (p : Port) : (Outputs.illegal p).rsp.isSome = true ↔ p = .cmd := by
  cases p <;> simp

/-- The operations that return something are those of CMD (R66). -/
theorem Block.responseTo_isSome (i : Instr) (b : Block) : (b.responseTo i).isSome = true ↔ i.port = .cmd := by
  cases i <;> simp [Block.responseTo, Instr.port, Instr.operation, Operation.port]

/-- A performed word written out: an operation of the port with its effect and response, or the signal alone. -/
theorem perform_spec (p : Port) (w : OpWord) (s : State) :
    (∃ i, decode p w = .operation i ∧ i.port = p ∧ perform p w s = .next { s with
      block := s.block.after s.params i, out := ⟨s.block.responseTo i, false, false⟩ }) ∨
    (IllegalWord p w ∧ perform p w s = .next (s.signalIllegal p)) := by
  obtain ⟨i, hw, hlegal⟩ | ⟨why, hw, hill⟩ := perform_cases p w s
  · exact .inl ⟨i, hw, port_of_decode hw, hlegal.trans (exec_eq i s)⟩
  · exact .inr ⟨illegalWord_iff.mpr ⟨why, hw⟩, hill⟩

theorem perform_of_illegalWord {p : Port} {w : OpWord} (hw : IllegalWord p w) (s : State) :
    perform p w s = .next (s.signalIllegal p) := by
  obtain ⟨why, hdecode⟩ := illegalWord_iff.mp hw
  simp only [perform, hdecode]

/-- Only an illegal word raises a flag, and only that of its own port. -/
theorem illegalWord_of_flag {p q : Port} {w : OpWord} {s t : State} (h : perform p w s = .next t)
    (hflag : t.out.flag q = true) : p = q ∧ IllegalWord p w := by
  obtain ⟨i, -, -, hlegal⟩ | ⟨hill, hsignal⟩ := perform_spec p w s
  · cases hlegal.symm.trans h
    simp [Outputs.flag_of_legal] at hflag
  · cases hsignal.symm.trans h
    exact ⟨by simpa [Outputs.illegal_flag] using hflag, hill⟩

/-- A word leaves the schedule it is performed on, and has a response exactly on CMD. -/
theorem perform_inputs_rsp (p : Port) (w : OpWord) (s : State) :
    ∃ t, perform p w s = .next t ∧ t.inputs = s.inputs ∧ (t.out.rsp.isSome = true ↔ p = .cmd) := by
  obtain ⟨i, -, rfl, hlegal⟩ | ⟨-, hsignal⟩ := perform_spec p w s
  · exact ⟨_, hlegal, rfl, Block.responseTo_isSome i s.block⟩
  · exact ⟨_, hsignal, rfl, Outputs.illegal_rsp_isSome p⟩

/-- Settles O14: a word presented alone is performed, and the decoder says as what. -/
theorem wordIsPerformedInOneStep : Obligations.WordIsPerformedInOneStep := by
  intro p w s rest hinputs
  obtain ⟨t, hperform, hrest, hrsp⟩ := perform_inputs_rsp p w (s.withInputs rest)
  refine ⟨t, (step_of_presentWord hinputs).trans hperform, hperform, fun i hw => ?_, fun why hw => ?_, hrest, hrsp⟩
  · exact (perform_of_operation hw (s.withInputs rest)).symm.trans hperform
  · have hsignal := perform_of_illegalWord (illegalWord_iff.mpr ⟨why, hw⟩) (s.withInputs rest)
    cases hsignal.symm.trans hperform
    rfl

/-! ### The flags of a step (R72) -/

/-- A step that raises the flag of a port was presented an illegal word on that port, without RESET. -/
theorem illegalWord_presented_of_flag {q : Port} {s t : State} (h : step s = .next t) (hflag : t.out.flag q = true) :
    ∃ pins rest w, s.inputs = pins :: rest ∧ pins.reset = false ∧ pins.word q = some w ∧ IllegalWord q w := by
  have hquiet : t.out ≠ Outputs.quiet := fun hout => by
    rw [hout, Outputs.quiet, Outputs.flag_of_legal] at hflag
    cases hflag
  obtain ⟨-, hidle⟩ | ⟨pins, rest, hinputs, ⟨-, hreset⟩ | ⟨-, -, -, hidle⟩ |
    ⟨hnoReset, p, w, inputs, ties, hev, hcmd, -, -, hword⟩⟩ := step_cases s
  · cases hidle.symm.trans h
    exact absurd rfl hquiet
  · cases hreset.symm.trans h
    exact absurd rfl hquiet
  · cases hidle.symm.trans h
    exact absurd rfl hquiet
  · obtain ⟨rfl, hill⟩ := illegalWord_of_flag (hword.symm.trans h) hflag
    refine ⟨pins, rest, w, hinputs, hnoReset, ?_, hill⟩
    cases p with
    | ev => exact hev rfl
    | cmd => exact hcmd rfl

/-- Settles O8: an illegal word presented alone only sets the outputs, and nothing else raises a flag. -/
theorem illegalWordIsInert : Obligations.IllegalWordIsInert := by
  refine ⟨fun p w s rest hw hinputs => ?_, fun s t => illegalWord_presented_of_flag (q := .cmd),
    fun s t => illegalWord_presented_of_flag (q := .ev)⟩
  rw [step_of_presentWord hinputs, perform_of_illegalWord hw]
  cases p <;> rfl

/-! ### What each port may write (R71, R158) -/

/-- The commands write neither the Time Base, nor the filter, nor the PWM count. -/
theorem Block.after_of_cmd (p : Params) {i : Instr} (hi : i.port = .cmd) (b : Block) :
    SameTimeAndButton b (b.after p i) ∧ (b.after p i).pwmCnt = b.pwmCnt := by
  have hnotEv : i.port ≠ .ev := by simp [hi]
  obtain ⟨htick, hclk⟩ := not_or.mp (mt i.port_eq_ev_iff.mpr hnotEv)
  exact ⟨Block.after_timeAndButton_of_not_tick p (not_exists.mp htick) b, Block.after_pwmCnt_of_not_pwmclk p hclk b⟩

/-- The events do not write the level settings. -/
theorem Block.after_of_ev (p : Params) {i : Instr} (hi : i.port = .ev) (b : Block) :
    SameLevelSettings b (b.after p i) := by
  obtain ⟨raw, rfl⟩ | rfl := i.port_eq_ev_iff.mp hi <;>
    exact Block.after_levelSettings_of_not_set p (by simp) b

theorem perform_portRights (p : Port) (w : OpWord) (s : State) :
    ∃ t, perform p w s = .next t ∧
      (p = .cmd → SameTimeAndButton s.block t.block ∧ t.block.pwmCnt = s.block.pwmCnt) ∧
      (p = .ev → SameLevelSettings s.block t.block) := by
  obtain ⟨i, -, rfl, hlegal⟩ | ⟨-, hsignal⟩ := perform_spec p w s
  · exact ⟨_, hlegal, fun hcmd => Block.after_of_cmd s.params hcmd s.block,
      fun hev => Block.after_of_ev s.params hev s.block⟩
  · exact ⟨_, hsignal, fun _ => ⟨⟨rfl, rfl, rfl, rfl⟩, rfl⟩, fun _ => ⟨rfl, rfl, rfl, rfl⟩⟩

/-- Settles O39: with nothing on a port, the word that is performed, if there is one, is a word of the other port. -/
theorem portRightsHoldForEveryWord : Obligations.PortRightsHoldForEveryWord := by
  intro s pins rest hinputs hnoReset
  obtain ⟨hnil, -⟩ | ⟨pins', rest', hcons, hcases⟩ := step_cases s
  · cases hnil.symm.trans hinputs
  cases hcons.symm.trans hinputs
  obtain ⟨hreset, -⟩ | ⟨-, -, -, hidle⟩ | ⟨-, p, w, inputs, ties, hev, hcmd, -, -, hword⟩ := hcases
  · cases hreset.symm.trans hnoReset
  · exact ⟨_, hidle, fun _ => ⟨⟨rfl, rfl, rfl, rfl⟩, rfl⟩, fun _ => ⟨rfl, rfl, rfl, rfl⟩⟩
  · obtain ⟨t, hperform, hcmdRights, hevRights⟩ := perform_portRights p w { s with inputs := inputs, ties := ties }
    refine ⟨t, hword.trans hperform, fun hnone => hcmdRights ?_, fun hnone => hevRights ?_⟩
    · cases p with
      | ev => cases hnone.symm.trans (hev rfl)
      | cmd => rfl
    · cases p with
      | ev => rfl
      | cmd => cases hnone.symm.trans (hcmd rfl)

end Sys2Proof.Machine
end

section
/-! PROOFS. The Time Base (spec R90 to R97): one `TICK`, the two reads, and the time after any operations. -/

namespace Sys2Proof.Machine

/-! ### TICK (R91) -/

theorem Block.tick_time_of_carry {p : Params} {b : Block} (raw : Bool)
    (hcarry : usecPerSec ≤ b.tbUsec.toNat + p.period) :
    (b.tick p raw).tbUsec.toNat = b.tbUsec.toNat + p.period - usecPerSec ∧
      (b.tick p raw).tbSec.toNat = (b.tbSec.toNat + 1) % 2 ^ 32 := by
  rw [Block.tick_tbUsec, Block.tick_tbSec, Block.tbTick_tbUsec_toNat, Block.tbTick_tbSec, if_pos hcarry, if_pos hcarry]
  exact ⟨rfl, BitVec.toNat_add _ _⟩

theorem Block.tick_time_of_no_carry {p : Params} {b : Block} (raw : Bool)
    (hcarry : b.tbUsec.toNat + p.period < usecPerSec) :
    (b.tick p raw).tbUsec.toNat = b.tbUsec.toNat + p.period ∧ (b.tick p raw).tbSec = b.tbSec := by
  have hnot := Nat.not_le.mpr hcarry
  rw [Block.tick_tbUsec, Block.tick_tbSec, Block.tbTick_tbUsec_toNat, Block.tbTick_tbSec, if_neg hnot, if_neg hnot]
  exact ⟨rfl, rfl⟩

/-- Settles O15, by the two branches of `tb_tick`. -/
theorem tickAdvancesTimeBase : Obligations.TickAdvancesTimeBase :=
  fun raw s => ⟨_, exec_eq (.tick raw) s, Block.tick_time_of_carry raw, Block.tick_time_of_no_carry raw⟩

/-! ### NOW and ELAPSED (R92, R93) -/

/-- The low half of a packed Instant is its `usec` (R15). -/
theorem packInstant_toNat_mod (t : Instant) : (packInstant t).toNat % 2 ^ 32 = t.usec.toNat := by
  rw [packInstant_toNat, Nat.mul_add_mod_self_right, Nat.mod_eq_of_lt t.usec.isLt]

/-- Settles O18: the low half of the response is `tb_usec`, which I1 bounds. -/
theorem nowReturnsSnapshot : Obligations.NowReturnsSnapshot :=
  fun s => ⟨exec_eq .now s, fun hs => (packInstant_toNat_mod s.block.instant).trans_lt hs.usec_lt⟩

@[simp] theorem zextTime_toNat (t : Time32) : (zextTime t).toNat = t.toNat :=
  BitVec.toNat_setWidth_of_le (by decide)

/-- Reducing each operation of R93 modulo 2^32 is reducing the integer difference once (R93 (b)). -/
theorem Block.elapsedSince_toNat (b : Block) (since : Instant) :
    ((b.elapsedSince since).toNat : Int) =
      (((b.tbSec.toNat : Int) - since.sec.toNat) * 1000000 + ((b.tbUsec.toNat : Int) - since.usec.toNat)) % 2 ^ 32 := by
  have husecPerSec : (BitVec.ofNat 32 usecPerSec).toNat = 1000000 := by decide
  rw [Block.elapsedSince, BitVec.toNat_add, BitVec.toNat_mul, BitVec.toNat_sub, BitVec.toNat_sub, husecPerSec]
  omega

/-- Settles O19. -/
theorem elapsedIsModularDifference : Obligations.ElapsedIsModularDifference := by
  intro sec usec s
  refine ⟨_, exec_eq (.elapsed sec usec) s, ?_⟩
  rw [zextTime_toNat]
  exact Block.elapsedSince_toNat s.block ⟨sec, usec⟩

/-! ### The time after a list of operations (R95, R96)

Only `TICK` moves the time, so a property of the Time Base at a time `m` that each `TICK` takes to `m + P` is taken by a
list of operations with `N` ticks to `m + N * P`. -/

theorem Block.afterAll_advances {p : Params} {Q : Nat → Block → Prop}
    (htick : ∀ m raw b, Q m b → Q (m + p.period) (b.tick p raw))
    (hkeep : ∀ m b c, c.tbSec = b.tbSec → c.tbUsec = b.tbUsec → Q m b → Q m c)
    (ops : List Instr) {m : Nat} {b : Block} (hb : Q m b) :
    Q (m + tickCount ops * p.period) (b.afterAll p ops) := by
  induction ops generalizing m b with
  | nil => simpa using hb
  | cons i ops ih =>
    rw [Block.afterAll_cons]
    by_cases hi : ∃ raw, i = .tick raw
    · obtain ⟨raw, rfl⟩ := hi
      have hsum : m + (tickCount ops + 1) * p.period = m + p.period + tickCount ops * p.period := by ring
      rw [tickCount_cons_tick, hsum]
      exact ih (htick m raw b hb)
    · obtain ⟨hsec, husec⟩ := Block.after_time_of_not_tick p (not_exists.mp hi) b
      rw [tickCount_cons_of_not_tick (not_exists.mp hi)]
      exact ih (hkeep m b _ hsec husec hb)

/-- The Time Base shows `m` microseconds, its seconds modulo 2^32 (R95). -/
structure Block.ShowsTime (m : Nat) (b : Block) : Prop where
  sec_eq : b.tbSec.toNat = m / usecPerSec % 2 ^ 32
  usec_eq : b.tbUsec.toNat = m % usecPerSec

theorem Block.showsTime_total {b : Block} (hb : b.tbUsec.toNat < usecPerSec) : b.ShowsTime b.total := by
  have hsec := b.tbSec.isLt
  constructor <;> simp only [Block.total, usecPerSec] at hb ⊢ <;> omega

/-- Until the seconds wrap, the time shown is the total. -/
theorem Block.ShowsTime.total_eq {m : Nat} {b : Block} (hb : b.ShowsTime m) (hm : m < 2 ^ 32 * usecPerSec) :
    b.total = m := by
  obtain ⟨hsec, husec⟩ := hb
  simp only [Block.total, usecPerSec] at *
  omega

/-- P is at most one second, so the one carry of `TICK` is the carry of the division by 1_000_000. -/
theorem Block.ShowsTime.tick {p : Params} {m : Nat} {b : Block} (hb : b.ShowsTime m) (raw : Bool) :
    (b.tick p raw).ShowsTime (m + p.period) := by
  obtain ⟨hsec, husec⟩ := hb
  obtain ⟨-, hp⟩ := p.period_range
  rcases Nat.lt_or_ge (b.tbUsec.toNat + p.period) usecPerSec with hlt | hge
  · obtain ⟨husec', hsec'⟩ := Block.tick_time_of_no_carry raw hlt
    constructor <;> simp only [usecPerSec, husec', hsec'] at * <;> omega
  · obtain ⟨husec', hsec'⟩ := Block.tick_time_of_carry raw hge
    constructor <;> simp only [usecPerSec, husec', hsec'] at * <;> omega

theorem Block.ShowsTime.afterAll {m : Nat} {b : Block} (hb : b.ShowsTime m) (p : Params) (ops : List Instr) :
    (b.afterAll p ops).ShowsTime (m + tickCount ops * p.period) := by
  refine Block.afterAll_advances (Q := Block.ShowsTime) (fun _ raw _ h => h.tick raw) ?_ ops hb
  rintro m b c hsec husec ⟨hbsec, hbusec⟩
  exact ⟨hsec ▸ hbsec, husec ▸ hbusec⟩

/-- Settles O20: at its start the block shows its total, and operations advance what it shows. -/
theorem totalTimeCountsTicks : Obligations.TotalTimeCountsTicks := by
  intro ops s husec
  obtain ⟨o, ho⟩ := execAll_spec ops s
  have hshows := (Block.showsTime_total husec).afterAll s.params ops
  exact ⟨_, ho, hshows.sec_eq, hshows.usec_eq, hshows.total_eq⟩

/-! ### ELAPSED counts the ticks (R96, R97) -/

theorem Block.elapsedSince_instant (b : Block) : b.elapsedSince b.instant = 0#32 := by
  simp [Block.elapsedSince, Block.instant]

/-- Modulo 2^32 nothing is lost at a wrap of the seconds, so this needs no bound on the time. -/
theorem Block.afterAll_elapsedSince (p : Params) (ops : List Instr) (b : Block) :
    (b.afterAll p ops).elapsedSince b.instant = BitVec.ofNat 32 (tickCount ops * p.period) := by
  have hadvances := Block.afterAll_advances (p := p) (Q := fun m c => c.elapsedSince b.instant = BitVec.ofNat 32 m)
    (fun m raw c hc => by rw [Block.elapsedSince_tick, hc, BitVec.ofNat_add])
    (fun m c d hsec husec hc => by simpa only [Block.elapsedSince, hsec, husec] using hc)
    ops b.elapsedSince_instant
  simpa only [Nat.zero_add] using hadvances

/-- `ELAPSED` of the Instant at the start of a list of operations. -/
theorem execAll_elapsed (ops : List Instr) (s : State) :
    ∃ t u r, execAll ops s = .next t ∧ exec (.elapsed s.block.tbSec s.block.tbUsec) t = .next u ∧
      u.out.rsp = some r ∧ r.toNat = tickCount ops * s.params.period % 2 ^ 32 := by
  obtain ⟨o, ho⟩ := execAll_spec ops s
  refine ⟨_, _, _, ho, exec_eq _ _, rfl, ?_⟩
  calc (zextTime ((s.block.afterAll s.params ops).elapsedSince s.block.instant)).toNat
    _ = ((s.block.afterAll s.params ops).elapsedSince s.block.instant).toNat := zextTime_toNat _
    _ = tickCount ops * s.params.period % 2 ^ 32 := by rw [Block.afterAll_elapsedSince, BitVec.toNat_ofNat]

/-- Settles O22: a number is its own residue exactly below the modulus. -/
theorem elapsedIsTrueExactlyInWindow : Obligations.ElapsedIsTrueExactlyInWindow := by
  intro ops s
  obtain ⟨t, u, r, hrun, helapsed, hrsp, hr⟩ := execAll_elapsed ops s
  refine ⟨t, u, r, hrun, helapsed, hrsp, hr, ?_⟩
  rw [hr, InWindow]
  exact Nat.mod_eq_iff_lt (by decide)

@[simp] theorem elapsedSinceResponse_packInstant (t : Instant) :
    elapsedSinceResponse (packInstant t) = .elapsed t.sec t.usec := by
  simp [elapsedSinceResponse]

/-- A larger total is a lexicographically later pair. -/
theorem Block.time_lt_of_total_lt {b c : Block} (hc : c.tbUsec.toNat < usecPerSec) (hlt : b.total < c.total) :
    b.tbSec.toNat < c.tbSec.toNat ∨ b.tbSec = c.tbSec ∧ b.tbUsec.toNat < c.tbUsec.toNat := by
  rw [← BitVec.toNat_inj]
  simp only [Block.total, usecPerSec] at hc hlt
  omega

theorem Block.total_tick {p : Params} {b : Block} (raw : Bool) (hb : b.tbUsec.toNat < usecPerSec)
    (hwrap : b.total + p.period < 2 ^ 32 * usecPerSec) : (b.tick p raw).total = b.total + p.period :=
  ((Block.showsTime_total hb).tick raw).total_eq hwrap

/-- Settles O21: the response of `NOW` holds the Instant at the start of the operations; and `P ≥ 1`, so a `TICK` that
does not wrap the seconds increases the total. -/
theorem elapsedSinceNowCountsTicks : Obligations.ElapsedSinceNowCountsTicks := by
  refine ⟨fun ops s => ?_, fun raw s husec hwrap => ?_⟩
  · obtain ⟨t, u, r, hrun, helapsed, hrsp, hr⟩ := execAll_elapsed ops (s.respond (packInstant s.block.instant))
    refine ⟨_, _, t, u, r, rfl, rfl, hrun, ?_, hrsp, hr⟩
    rw [elapsedSinceResponse_packInstant]
    exact helapsed
  · obtain ⟨hp, -⟩ := s.params.period_range
    have hlt : s.block.total < (s.block.tick s.params raw).total := by
      rw [Block.total_tick raw husec hwrap]
      omega
    have husec' : (s.block.tick s.params raw).tbUsec.toNat < usecPerSec := by
      rw [Block.tick_tbUsec]
      exact Block.tbTick_tbUsec_lt s.params husec
    exact ⟨_, exec_eq (.tick raw) s, Block.time_lt_of_total_lt husec' hlt⟩

end Sys2Proof.Machine
end

section
/-! PROOFS. The debounce filter (spec R110 to R113): one sample, the read, and the filter over any operations. -/

namespace Sys2Proof.Machine

/-! ### One sample (R110) and the read (R111) -/

/-- Settles O16, by the three cases of `db_sample`. -/
theorem tickSamplesButton : Obligations.TickSamplesButton :=
  fun raw s => ⟨_, exec_eq (.tick raw) s, fun hagrees => (Block.after_tick_of_agrees s.params hagrees).symm,
    fun hraw hcnt => (Block.after_tick_of_flips hraw hcnt).symm,
    fun hraw hcnt => (Block.after_tick_of_counts hraw hcnt).symm⟩

theorem zextBool_eq_ite (b : Bool) : zextBool b = if b then 1#64 else 0#64 := by
  cases b <;> rfl

/-- Settles O23: the response is the published state, and a read writes no field. -/
theorem isDownReturnsPublishedState : Obligations.IsDownReturnsPublishedState := by
  intro s
  rw [← zextBool_eq_ite]
  exact exec_eq .isDown s

/-! ### When a sample flips and when it cannot -/

/-- A sample that does not flip the filter: it agrees with the published state, or the count stands below `T - 1`. -/
def Block.Withstands (p : Params) (raw : Bool) (b : Block) : Prop :=
  raw = b.dbDown ∨ b.dbCnt.toNat + 1 < p.threshold

theorem Block.after_tick_dbDown_of_withstands {p : Params} {raw : Bool} {b : Block} (hb : b.Withstands p raw) :
    (b.after p (.tick raw)).dbDown = b.dbDown := by
  by_cases hraw : raw = b.dbDown
  · exact (Block.after_tick_of_agrees p hraw).1
  · exact (Block.after_tick_of_counts hraw (hb.resolve_left hraw)).1

/-- A `TICK` that changes the published state leaves the count 0: only the case that flips changes it. -/
theorem Block.after_tick_dbCnt_of_flip {p : Params} {raw : Bool} {b : Block}
    (hflip : (b.after p (.tick raw)).dbDown ≠ b.dbDown) : (b.after p (.tick raw)).dbCnt = 0#8 := by
  obtain ⟨hraw, hcnt⟩ := not_or.mp (mt Block.after_tick_dbDown_of_withstands hflip)
  exact (Block.after_tick_of_flips hraw (Nat.not_lt.mp hcnt)).2

theorem Block.after_tick_dbCnt_le (p : Params) (raw : Bool) (b : Block) :
    (b.after p (.tick raw)).dbCnt.toNat ≤ b.dbCnt.toNat + 1 := by
  rw [Block.after, Block.tick_dbCnt, Block.dbSample_dbCnt_toNat]
  split <;> omega

/-! ### A sustained change and a glitch (R112) -/

/-- Settles O24: a glitch is the part of a sustained change before its flip, so the sample after it agrees with a
published state that still stands. -/
theorem debounceStability : Obligations.DebounceStability := by
  refine ⟨fun ops s hzero hops hfew => ?_, fun ops s hcnt hops => execAll_sustainedChange hcnt hops⟩
  have hbelow : s.block.dbCnt.toNat + tickCount ops < s.params.threshold := by simpa [hzero] using hfew
  obtain ⟨t, hrun, hglitch, -⟩ := execAll_sustainedChange (Nat.lt_of_add_right_lt hbelow) hops
  obtain ⟨hdown, -⟩ := hglitch hbelow
  obtain ⟨hdown', hclear⟩ := Block.after_tick_of_agrees t.params hdown.symm
  exact ⟨t, _, hrun, hdown, exec_eq _ t, hdown'.trans hdown, hclear⟩

/-! ### Two flips are far apart (R113 (a)) -/

/-- Each `TICK` adds at most 1 to the count, whatever its sample, so too few of them cannot bring it to `T`. -/
theorem Block.afterAll_dbDown_of_few_ticks {p : Params} {ops : List Instr} {b : Block}
    (hfew : b.dbCnt.toNat + tickCount ops < p.threshold) : (b.afterAll p ops).dbDown = b.dbDown := by
  induction ops generalizing b with
  | nil => rfl
  | cons i ops ih =>
    rw [Block.afterAll_cons]
    by_cases hi : ∃ raw, i = .tick raw
    · obtain ⟨raw, rfl⟩ := hi
      rw [tickCount_cons_tick] at hfew
      have hle := Block.after_tick_dbCnt_le p raw b
      calc ((b.after p (.tick raw)).afterAll p ops).dbDown
        _ = (b.after p (.tick raw)).dbDown := ih (by omega)
        _ = b.dbDown := Block.after_tick_dbDown_of_withstands (.inr (by omega))
    · obtain ⟨hdown, hcnt⟩ := Block.after_filter_of_not_tick p (not_exists.mp hi) b
      rw [tickCount_cons_of_not_tick (not_exists.mp hi), ← hcnt] at hfew
      exact (ih hfew).trans hdown

/-- Settles O25: a flip leaves the count 0, and fewer than `T` ticks cannot bring it back to `T`. -/
theorem flipsAreThresholdTicksApart : Obligations.FlipsAreThresholdTicksApart := by
  refine fun raw s => ⟨_, exec_eq (.tick raw) s, fun hflip ops hfew => ?_⟩
  have hzero := Block.after_tick_dbCnt_of_flip hflip
  obtain ⟨o, ho⟩ := execAll_spec ops _
  exact ⟨_, ho, Block.afterAll_dbDown_of_few_ticks (by simpa [hzero] using hfew)⟩

/-! ### An alternating input (R113 (c)) -/

theorem ticksAlternate_cons_tick {raw r : Bool} {ops : List Instr} :
    TicksAlternate raw (.tick r :: ops) ↔ r = raw ∧ TicksAlternate (!raw) ops := by
  simp [TicksAlternate, tickSample, alternates]

theorem ticksAlternate_cons_of_not_tick {i : Instr} (hi : ∀ raw, i ≠ .tick raw) {raw : Bool} {ops : List Instr} :
    TicksAlternate raw (i :: ops) ↔ TicksAlternate raw ops := by
  cases i with
  | tick r => exact absurd rfl (hi r)
  | pwmclk | now | elapsed _ _ | isDown | setBrightness _ | getBrightness => rfl

/-- Of two opposite samples one agrees: after a sample that agrees the count is 0, below `T - 1`; and the opposite of a
sample that disagrees agrees. -/
theorem Block.Withstands.after_tick {p : Params} {raw : Bool} {b : Block} (hT : 2 ≤ p.threshold)
    (hb : b.Withstands p raw) : (b.after p (.tick raw)).Withstands p (!raw) := by
  by_cases hraw : raw = b.dbDown
  · obtain ⟨-, hzero⟩ := Block.after_tick_of_agrees p hraw
    exact .inr (by rw [hzero]; exact hT)
  · exact .inl (by rw [Block.after_tick_dbDown_of_withstands hb, Bool.not_eq]; exact hraw)

theorem Block.afterAll_dbDown_of_alternate {p : Params} (hT : 2 ≤ p.threshold) {ops : List Instr} {raw : Bool}
    {b : Block} (hops : TicksAlternate raw ops) (hb : b.Withstands p raw) :
    (b.afterAll p ops).dbDown = b.dbDown := by
  induction ops generalizing raw b with
  | nil => rfl
  | cons i ops ih =>
    rw [Block.afterAll_cons]
    by_cases hi : ∃ r, i = .tick r
    · obtain ⟨r, rfl⟩ := hi
      obtain ⟨rfl, hrest⟩ := ticksAlternate_cons_tick.mp hops
      exact (ih hrest (hb.after_tick hT)).trans (Block.after_tick_dbDown_of_withstands hb)
    · obtain ⟨hdown, hcnt⟩ := Block.after_filter_of_not_tick p (not_exists.mp hi) b
      have hb' : (b.after p i).Withstands p raw := by rwa [Block.Withstands, hdown, hcnt]
      exact (ih ((ticksAlternate_cons_of_not_tick (not_exists.mp hi)).mp hops) hb').trans hdown

/-- Settles O26: the first sample does not flip the filter, and then no sample does. -/
theorem alternatingInputNeverFlips : Obligations.AlternatingInputNeverFlips := by
  intro raw ops s hT hops hfirst
  obtain ⟨o, ho⟩ := execAll_spec ops s
  exact ⟨_, ho, Block.afterAll_dbDown_of_alternate hT hops hfirst⟩

end Sys2Proof.Machine
end

section
/-! PROOFS. The brightness unit (spec R125 to R133): the level setting, the read, one count of the PWM timer, and the
pin over any operations that hold the level. -/

namespace Sys2Proof.Machine

/-! ### SET_BRIGHTNESS (R125, R132) and GET_BRIGHTNESS (R126) -/

theorem Block.setLevel_of_off (b : Block) : b.setLevel levelOff =
    { b with brLevel := levelOff, lamp := false, pwmOvfEn := false, pwmCmpEn := false } := rfl

theorem Block.setLevel_of_full (b : Block) : b.setLevel levelFull =
    { b with brLevel := levelFull, lamp := true, pwmOvfEn := false, pwmCmpEn := false } := rfl

theorem Block.setLevel_of_dimmed {l : Level} (hoff : l ≠ levelOff) (hfull : l ≠ levelFull) (b : Block) :
    b.setLevel l = { b with brLevel := l, pwmOcr := l, pwmOvfEn := true, pwmCmpEn := true } := by
  rw [Block.setLevel, if_neg hoff, if_neg hfull]

/-- Settles O27, by the three cases of the level. -/
theorem setBrightnessConfiguresPwm : Obligations.SetBrightnessConfiguresPwm := by
  intro level s
  rw [exec_eq, Block.after]
  refine ⟨?_, ?_, fun hoff hfull => ?_⟩
  · rintro rfl
    rw [Block.setLevel_of_off]
    rfl
  · rintro rfl
    rw [Block.setLevel_of_full]
    rfl
  · rw [Block.setLevel_of_dimmed hoff hfull]
    rfl

/-- Settles O28: both enables say whether the level is dimmed, and the dimmed levels are 1 to 254. -/
theorem brightnessBoundary : Obligations.BrightnessBoundary := by
  intro level s
  obtain ⟨hovf, hcmp⟩ := Block.setLevel_enables level s.block
  exact ⟨_, exec_eq (.setBrightness level) s, hovf.trans hcmp.symm, by rw [← isDimmed_iff_toNat, ← hovf, Block.after]⟩

theorem zextLevel_eq_ofNat (l : Level) : zextLevel l = BitVec.ofNat 64 l.toNat :=
  (BitVec.ofNat_toNat 64 l).symm

/-- Settles O29: the response is the level, and a read writes no field. -/
theorem getBrightnessReturnsLevel : Obligations.GetBrightnessReturnsLevel := by
  intro s
  rw [← zextLevel_eq_ofNat]
  exact exec_eq .getBrightness s

/-! ### One count of the PWM timer (R127 to R130) -/

theorem Block.pwmCount_frame (b : Block) :
    b.pwmCount = { b with pwmCnt := b.pwmCount.pwmCnt, lamp := b.pwmCount.lamp } := by
  rw [Block.pwmCount_eq]

theorem Block.pwmCount_pwmCnt (b : Block) : b.pwmCount.pwmCnt = b.pwmCnt + 1#8 := by
  rw [Block.pwmCount_eq]

theorem Block.pwmCount_pwmCnt_toNat (b : Block) : b.pwmCount.pwmCnt.toNat = (b.pwmCnt.toNat + 1) % 256 := by
  rw [Block.pwmCount_pwmCnt, BitVec.toNat_add]
  rfl

/-- The pin by the events of the new count: the compare match is applied last (R130). -/
theorem Block.pwmCount_lamp (b : Block) :
    b.pwmCount.lamp =
      if b.pwmCount.pwmCnt = b.pwmOcr ∧ b.pwmCmpEn = true then false
      else if b.pwmCount.pwmCnt = 0#8 ∧ b.pwmOvfEn = true then true else b.lamp := by
  simp only [Block.pwmCount_eq, and_comm]

/-- Settles O31, by the three cases of the pin. -/
theorem pwmclkCountsAndDrivesPin : Obligations.PwmclkCountsAndDrivesPin := by
  intro s
  refine ⟨_, exec_eq .pwmclk s, ?_, s.block.pwmCount_pwmCnt_toNat, fun hcnt hcmp => ?_, fun hmatch hcnt hovf => ?_,
    fun hmatch hovf => ?_⟩
  · exact congrArg (fun b => { s with block := b, out := ⟨none, false, false⟩ }) s.block.pwmCount_frame
  · exact s.block.pwmCount_lamp.trans (if_pos ⟨hcnt, hcmp⟩)
  · exact (s.block.pwmCount_lamp.trans (if_neg hmatch)).trans (if_pos ⟨hcnt, hovf⟩)
  · exact (s.block.pwmCount_lamp.trans (if_neg hmatch)).trans (if_neg hovf)

/-! ### The armed pin (R131, R133)

Only an event moves the pin: low to high at the count 0, high to low at the count `L`. At and after either event the pin
is in phase, high exactly at the counts below `L`. So after a level change the pin stands until the first event that
opposes it, and is in phase from that count on. -/

/-- Both events are armed, and the compare value is `L` (R27, R28). -/
structure Block.ArmedAt (L : Nat) (b : Block) : Prop where
  ovf : b.pwmOvfEn = true
  cmp : b.pwmCmpEn = true
  ocr : b.pwmOcr.toNat = L

theorem Block.ArmedAt.of_sameLevelSettings {L : Nat} {b c : Block} (hb : b.ArmedAt L) (hbc : SameLevelSettings b c) :
    c.ArmedAt L := by
  obtain ⟨-, hocr, hovf, hcmp⟩ := hbc
  exact ⟨hovf.trans hb.ovf, hcmp.trans hb.cmp, hocr ▸ hb.ocr⟩

theorem Block.setLevel_armedAt {l : Level} (hl : isDimmed l = true) (b : Block) : (b.setLevel l).ArmedAt l.toNat := by
  obtain ⟨hovf, hcmp⟩ := Block.setLevel_enables l b
  exact ⟨hovf.trans hl, hcmp.trans hl, by rw [Block.setLevel_pwmOcr, if_pos hl]⟩

theorem Block.ArmedAt.pwmCount_lamp {L : Nat} {b : Block} (hb : b.ArmedAt L) :
    b.pwmCount.lamp = true ↔
      (b.pwmCnt.toNat + 1) % 256 ≠ L ∧ ((b.pwmCnt.toNat + 1) % 256 = 0 ∨ b.lamp = true) := by
  rw [Block.pwmCount_lamp, ← Block.pwmCount_pwmCnt_toNat, ← hb.ocr]
  simp [hb.ovf, hb.cmp, ← BitVec.toNat_inj]

/-- The first event that opposes a pin `v` comes at count `m` after the count `c`: an overflow if it is low, a compare
match if it is high. An event at `m` that agrees with the pin serves as well, for it leaves the pin in phase too. -/
structure PinTurnsAt (L c : Nat) (v : Bool) (m : Nat) : Prop where
  pos : 1 ≤ m
  stands : ∀ n, 1 ≤ n → n < m → (c + n) % 256 ≠ if v then L else 0
  event : (c + m) % 256 = 0 ∨ (c + m) % 256 = L

/-- The block `n` counts after the count `c`, with the level held at `L`: a pin that was `v` stands for fewer than `m`
counts, and is in phase from then on. -/
structure Block.PinAt (L c : Nat) (v : Bool) (m n : Nat) (b : Block) : Prop where
  armed : b.ArmedAt L
  cnt : b.pwmCnt.toNat = (c + n) % 256
  stands : n < m → b.lamp = v
  inPhase : m ≤ n → (b.lamp = true ↔ (c + n) % 256 < L)

theorem Block.ArmedAt.pinAt_zero {L c m : Nat} {v : Bool} {b : Block} (hb : b.ArmedAt L)
    (hm : PinTurnsAt L c v m) (hc : b.pwmCnt.toNat = c) (hv : b.lamp = v) : b.PinAt L c v m 0 where
  armed := hb
  cnt := by
    subst hc
    exact (Nat.mod_eq_of_lt b.pwmCnt.isLt).symm
  stands := fun _ => hv
  inPhase := fun h => absurd (hm.pos.trans h) (by decide)

/-- One count: before `m` no event opposes the pin, the event at `m` brings it in phase, and in phase it stays. -/
theorem Block.PinAt.pwmCount {L c m n : Nat} {v : Bool} {b : Block} (hL : 1 ≤ L) (hm : PinTurnsAt L c v m)
    (hb : b.PinAt L c v m n) : b.pwmCount.PinAt L c v m (n + 1) := by
  have hcnt : (b.pwmCnt.toNat + 1) % 256 = (c + (n + 1)) % 256 := by
    have h := hb.cnt
    omega
  have hlamp := hb.armed.pwmCount_lamp
  rw [hcnt] at hlamp
  refine ⟨hb.armed.of_sameLevelSettings ?_, b.pwmCount_pwmCnt_toNat.trans hcnt, fun hlt => ?_, fun hge => ?_⟩
  · rw [Block.pwmCount_frame]
    exact ⟨rfl, rfl, rfl, rfl⟩
  · have hquiet := hm.stands (n + 1) (by omega) hlt
    rw [hb.stands (by omega)] at hlamp
    cases v with
    | true => exact hlamp.mpr ⟨hquiet, .inr rfl⟩
    | false =>
      rw [← Bool.not_eq_true, hlamp]
      exact fun ⟨_, h⟩ => h.elim hquiet Bool.false_ne_true
  · rw [hlamp]
    rcases Nat.lt_or_ge n m with hlt | hge'
    · obtain rfl : n + 1 = m := Nat.le_antisymm hlt hge
      have hevent := hm.event
      omega
    · rw [hb.inPhase hge']
      omega

theorem Block.PinAt.lamp_cases {L c m n : Nat} {v : Bool} {b : Block} (hb : b.PinAt L c v m n) :
    (n < m → b.lamp = v) ∧ (m ≤ n → (b.lamp = true ↔ (c + n) % 256 < L)) :=
  ⟨hb.stands, hb.inPhase⟩

/-- Only `PWMCLK` moves the pin, the count or the level settings while the level is held. -/
theorem Block.PinAt.after_of_not_pwmclk {L c m n : Nat} {v : Bool} {b : Block} (hb : b.PinAt L c v m n) (p : Params)
    {i : Instr} (hclk : i ≠ .pwmclk) (hi : ∀ level, i ≠ .setBrightness level) :
    (b.after p i).PinAt L c v m n := by
  have hcnt := Block.after_pwmCnt_of_not_pwmclk p hclk b
  have hlamp := Block.after_lamp_of_not_writer p hclk (hi _) (hi _) b
  exact ⟨hb.armed.of_sameLevelSettings (Block.after_levelSettings_of_not_set p hi b), hcnt ▸ hb.cnt,
    hlamp ▸ hb.stands, hlamp ▸ hb.inPhase⟩

theorem Block.PinAt.afterAll {L c m n : Nat} {v : Bool} {b : Block} (hL : 1 ≤ L) (hm : PinTurnsAt L c v m)
    (hb : b.PinAt L c v m n) (p : Params) {ops : List Instr} (hops : LevelHeld ops) :
    (b.afterAll p ops).PinAt L c v m (n + pwmclkCount ops) := by
  induction ops generalizing b n with
  | nil => exact hb
  | cons i ops ih =>
    rw [Block.afterAll_cons]
    by_cases hi : i = .pwmclk
    · subst hi
      rw [pwmclkCount_cons_pwmclk, Nat.add_comm (pwmclkCount ops), ← Nat.add_assoc]
      exact ih (hb.pwmCount hL hm) hops.tail
    · rw [pwmclkCount_cons_of_not_pwmclk hi]
      exact ih (hb.after_of_not_pwmclk p hi hops.head) hops.tail

/-- The pin over operations that hold the level, from a block that is armed at `L`. -/
theorem Block.ArmedAt.afterAll_pinAt {L c m : Nat} {v : Bool} {b : Block} (hb : b.ArmedAt L) (hL : 1 ≤ L)
    (hm : PinTurnsAt L c v m) (hc : b.pwmCnt.toNat = c) (hv : b.lamp = v) (p : Params) {ops : List Instr}
    (hops : LevelHeld ops) : (b.afterAll p ops).PinAt L c v m (pwmclkCount ops) := by
  have hpin := (hb.pinAt_zero hm hc hv).afterAll hL hm p hops
  rwa [Nat.zero_add] at hpin

/-- A dimmed `SET_BRIGHTNESS` arms both events and leaves the count and the pin. -/
theorem Block.afterAll_pinAt_of_setLevel {l : Level} {m : Nat} {v : Bool} {b : Block} (hlo : 1 ≤ l.toNat)
    (hhi : l.toNat ≤ 254) (hv : b.lamp = v) (hm : PinTurnsAt l.toNat b.pwmCnt.toNat v m) (p : Params)
    {ops : List Instr} (hops : LevelHeld ops) :
    ((b.setLevel l).afterAll p ops).PinAt l.toNat b.pwmCnt.toNat v m (pwmclkCount ops) := by
  have hl := (isDimmed_iff_toNat l).mpr ⟨hlo, hhi⟩
  have hcnt : (b.setLevel l).pwmCnt = b.pwmCnt := by rw [Block.setLevel_frame]
  exact (Block.setLevel_armedAt hl b).afterAll_pinAt hlo hm (congrArg BitVec.toNat hcnt)
    ((Block.setLevel_lamp_of_isDimmed hl b).trans hv) p hops

/-! ### When the pin turns (R133) -/

theorem pinTurnsAt_of_low {L c : Nat} (hc : c < 256) : PinTurnsAt L c false (256 - c) where
  pos := by omega
  stands := fun n hpos hn => by
    rw [if_neg Bool.false_ne_true]
    omega
  event := .inl (by omega)

theorem pinTurnsAt_of_high_below {L c : Nat} (hL : L < 256) (hc : c < L) : PinTurnsAt L c true (L - c) where
  pos := by omega
  stands := fun n hpos hn => by
    rw [if_pos rfl]
    omega
  event := .inr (by omega)

theorem pinTurnsAt_of_high_above {L c : Nat} (hL : 1 ≤ L) (hLc : L ≤ c) (hc : c < 256) :
    PinTurnsAt L c true (256 - c + L) where
  pos := by omega
  stands := fun n hpos hn => by
    rw [if_pos rfl]
    omega
  event := .inr (by omega)

/-- The next count is an overflow: nothing comes before it, whatever the pin. -/
theorem pinTurnsAt_one_of_overflow (L : Nat) (v : Bool) : PinTurnsAt L 255 v 1 where
  pos := Nat.le_refl 1
  stands := fun _ hpos hn => absurd hpos (Nat.not_le.mpr hn)
  event := .inl rfl

/-- Settles O34: the levels 0 and 255 disarm both events, so the pin stands where they force it; a dimmed level leaves the
pin, which turns at the point of its case. -/
theorem pinAfterLevelChange : Obligations.PinAfterLevelChange := by
  intro level ops s hops
  obtain ⟨o, ho⟩ := execAll_spec ops { s with
    block := s.block.setLevel level, out := ⟨some 0#64, false, false⟩ }
  have hc : s.block.pwmCnt.toNat < 256 := s.block.pwmCnt.isLt
  refine ⟨_, _, exec_eq (.setBrightness level) s, ho, ?_, ?_, fun hlo hhi hlow => ?_, fun hlo hhi hhigh hbelow => ?_,
    fun hlo hhi hhigh habove => ?_⟩
  · rintro rfl
    exact Block.afterAll_lamp_of_disarmed s.params hops rfl rfl
  · rintro rfl
    exact Block.afterAll_lamp_of_disarmed s.params hops rfl rfl
  · exact (Block.afterAll_pinAt_of_setLevel hlo hhi hlow (pinTurnsAt_of_low hc) s.params hops).lamp_cases
  · have hturns := pinTurnsAt_of_high_below level.isLt hbelow
    exact (Block.afterAll_pinAt_of_setLevel hlo hhi hhigh hturns s.params hops).lamp_cases
  · have hturns := pinTurnsAt_of_high_above hlo habove hc
    exact (Block.afterAll_pinAt_of_setLevel hlo hhi hhigh hturns s.params hops).lamp_cases

/-! ### The duty cycle (R131) -/

theorem levelHeld_replicate_pwmclk (n : Nat) : LevelHeld (List.replicate n .pwmclk) := by
  intro i hi
  rw [List.eq_of_mem_replicate hi]
  decide

theorem pwmclkCount_replicate_pwmclk (n : Nat) : pwmclkCount (List.replicate n .pwmclk) = n := by
  induction n with
  | zero => rfl
  | succ n ih => rw [List.replicate_succ, pwmclkCount_cons_pwmclk, ih]

/-- Of any `a` consecutive numbers `L` have a residue below `L`: a window moved by one loses and gains the same
residue. -/
theorem count_mod_lt {L a : Nat} (hL : L ≤ a) (k : Nat) : Nat.count (fun j => (k + j) % a < L) a = L := by
  have hfirst : Nat.count (fun j => j % a < L) a = L := by
    obtain ⟨d, rfl⟩ := Nat.exists_eq_add_of_le hL
    have hbelow : Nat.count (fun j => j % (L + d) < L) L = L :=
      Nat.count_of_forall fun j hj => by rwa [Nat.mod_eq_of_lt (by omega)]
    have habove : Nat.count (fun j => (L + j) % (L + d) < L) d = 0 :=
      Nat.count_of_forall_not fun j hj => by
        rw [Nat.mod_eq_of_lt (by omega)]
        omega
    rw [Nat.count_add, hbelow, habove, Nat.add_zero]
  have hmoved : Nat.count (fun j => j % a < L) (k + a) = Nat.count (fun j => j % a < L) (a + k) := by
    rw [Nat.add_comm]
  simp only [Nat.count_add, Nat.add_mod_left, hfirst] at hmoved
  omega

/-- R131, phase by phase: the count that overflows brings the pin in phase. -/
theorem execAll_pin_of_overflow {s : State} {level : Nat} (hs : s.block.ArmedAt level) (hlevel : 1 ≤ level)
    (hcnt : s.block.pwmCnt = 255#8) {ops : List Instr} {n : Nat} (hops : LevelHeld ops)
    (hn : pwmclkCount ops = n + 1) :
    ∃ t, execAll ops s = .next t ∧ t.block.pwmCnt.toNat = n % 256 ∧ (t.block.lamp = true ↔ n % 256 < level) := by
  obtain ⟨o, ho⟩ := execAll_spec ops s
  have hpin := hs.afterAll_pinAt hlevel (pinTurnsAt_one_of_overflow level s.block.lamp)
    (congrArg BitVec.toNat hcnt) rfl s.params hops
  have hphase : (255 + pwmclkCount ops) % 256 = n % 256 := by omega
  have hlamp := hpin.inPhase (by omega)
  rw [hphase] at hlamp
  exact ⟨_, ho, hpin.cnt.trans hphase, hlamp⟩

/-- Settles O33: from the overflow on the pin is in phase, and of 256 consecutive counts `L` are below `L`. -/
theorem dutyCycleIsLevelOf256 : Obligations.DutyCycleIsLevelOf256 := by
  intro s level hlo hhi hocr hovf hcmp hcnt
  have hs : s.block.ArmedAt level := ⟨hovf, hcmp, hocr⟩
  refine ⟨fun ops n hops hn => execAll_pin_of_overflow hs hlo hcnt hops hn, fun k => ?_⟩
  have hlamp : ∀ j, lampAfter (execAll (List.replicate (k + j + 1) .pwmclk) s) = decide ((k + j) % 256 < level) := by
    intro j
    obtain ⟨t, ht, -, hpin⟩ := execAll_pin_of_overflow hs hlo hcnt (levelHeld_replicate_pwmclk _)
      (pwmclkCount_replicate_pwmclk (k + j + 1))
    rw [ht, lampAfter, Bool.eq_iff_iff, hpin, decide_eq_true_iff]
  simp only [hlamp]
  rw [← List.countP_eq_length_filter]
  exact count_mod_lt (by omega) k

end Sys2Proof.Machine
end

section
/-! PROOFS. No exceptions and no privilege (spec R150, R158): no run stops, and CMD reads only what R158 lets it. -/

namespace Sys2Proof.Machine

/-! ### Every run goes on (R150, R189) -/

/-- Whatever is presented, no step faults or is refused. -/
theorem step_proceeds (s : State) : ∃ t, step s = .next t := by
  obtain ⟨-, hidle⟩ | ⟨_, _, -, ⟨-, hreset⟩ | ⟨-, -, -, hidle⟩ | ⟨-, p, w, inputs, ties, -, -, -, -, hword⟩⟩ :=
    step_cases s
  · exact ⟨_, hidle⟩
  · exact ⟨_, hreset⟩
  · exact ⟨_, hidle⟩
  · obtain ⟨t, hperform, -, -⟩ := perform_inputs_rsp p w { s with inputs := inputs, ties := ties }
    exact ⟨t, hword.trans hperform⟩

theorem run_succ_of_step {s t : State} (hstep : step s = .next t) (k : Nat) :
    Host.Core.run Sys2Proof.core (k + 1) s = Host.Core.run Sys2Proof.core k t := by
  have hcore : Sys2Proof.core.step s = .next t := hstep
  simp only [Host.Core.run, hcore]

/-- Settles O44, by induction on the number of steps. -/
theorem everyRunProceeds : Obligations.EveryRunProceeds := by
  intro k
  induction k with
  | zero => exact fun s => ⟨s, rfl⟩
  | succ k ih =>
    intro s
    obtain ⟨t, hstep⟩ := step_proceeds s
    rw [SafeRun, run_succ_of_step hstep]
    exact ih t

/-! ### What CMD reads (R158, R162) -/

theorem Block.responseTo_of_sameReadable (i : Instr) {b c : Block} (hbc : SameReadable b c) :
    c.responseTo i = b.responseTo i := by
  obtain ⟨hsec, husec, hdown, hlevel⟩ := hbc
  cases i with
  | tick _ | pwmclk | setBrightness _ => rfl
  | now => simp only [Block.responseTo, Block.instant, hsec, husec]
  | elapsed _ _ => simp only [Block.responseTo, Block.elapsedSince, hsec, husec]
  | isDown => simp only [Block.responseTo, hdown]
  | getBrightness => simp only [Block.responseTo, hlevel]

/-- No operation computes the level from anything but the level. -/
theorem Block.after_brLevel_congr (p q : Params) (i : Instr) {b c : Block} (hbc : c.brLevel = b.brLevel) :
    (c.after q i).brLevel = (b.after p i).brLevel := by
  by_cases hi : ∃ level, i = .setBrightness level
  · obtain ⟨level, rfl⟩ := hi
    exact (Block.setLevel_brLevel level c).trans (Block.setLevel_brLevel level b).symm
  · obtain ⟨hb, -, -, -⟩ := Block.after_levelSettings_of_not_set p (not_exists.mp hi) b
    obtain ⟨hc, -, -, -⟩ := Block.after_levelSettings_of_not_set q (not_exists.mp hi) c
    exact hc.trans (hbc.trans hb.symm)

/-- Of the fields R158 lets CMD read, a command writes only the level, and not from P or T. -/
theorem Block.after_sameReadable_of_cmd (p q : Params) {i : Instr} (hi : i.port = .cmd) {b c : Block}
    (hbc : SameReadable b c) : SameReadable (b.after p i) (c.after q i) := by
  obtain ⟨hsec, husec, hdown, hlevel⟩ := hbc
  obtain ⟨⟨hbsec, hbusec, -, hbdown⟩, -⟩ := Block.after_of_cmd p hi b
  obtain ⟨⟨hcsec, hcusec, -, hcdown⟩, -⟩ := Block.after_of_cmd q hi c
  exact ⟨hcsec.trans (hsec.trans hbsec.symm), hcusec.trans (husec.trans hbusec.symm),
    hcdown.trans (hdown.trans hbdown.symm), Block.after_brLevel_congr p q i hlevel⟩

theorem perform_cmd_sameReadable (w : OpWord) {s t : State} (hst : SameReadable s.block t.block) :
    ∃ s' t', perform .cmd w s = .next s' ∧ perform .cmd w t = .next t' ∧ s'.out = t'.out ∧
      SameReadable s'.block t'.block := by
  cases hw : decode .cmd w with
  | operation i =>
    have hexec : ∀ u, perform .cmd w u = .next { u with
        block := u.block.after u.params i, out := ⟨u.block.responseTo i, false, false⟩ } :=
      fun u => (perform_of_operation hw u).trans (exec_eq i u)
    refine ⟨_, _, hexec s, hexec t, ?_, Block.after_sameReadable_of_cmd s.params t.params (port_of_decode hw) hst⟩
    rw [Block.responseTo_of_sameReadable i hst]
  | illegal why =>
    have hsignal := perform_of_illegalWord (illegalWord_iff.mpr ⟨why, hw⟩)
    exact ⟨_, _, hsignal s, hsignal t, rfl, hst⟩

/-- Settles O40: a word presented alone on CMD is performed, and both blocks decode it alike. -/
theorem commandsReadOnlyReadableFields : Obligations.CommandsReadOnlyReadableFields := by
  intro w s t rest rest' hs ht hst
  rw [step_of_presentWord hs, step_of_presentWord ht]
  exact perform_cmd_sameReadable w (s := s.withInputs rest) (t := t.withInputs rest') hst

end Sys2Proof.Machine
end

section
/-! PROOFS. The reset state (spec R177, R178): what the reads return in it, and how the brightness unit comes back
to it. -/

namespace Sys2Proof.Machine

/-! ### The reads after reset (R178) -/

theorem packInstant_zero : packInstant ⟨0#32, 0#32⟩ = 0#64 := by decide

/-- Each of these reads widens fields that RESET clears (R39). -/
theorem Block.reset_responseTo {i : Instr} (hi : i = .now ∨ i = .isDown ∨ i = .getBrightness) :
    Block.reset.responseTo i = some 0#64 := by
  obtain rfl | rfl | rfl := hi
  case inl => exact congrArg some packInstant_zero
  case inr.inl => exact congrArg some (zextBool_eq_ite false)
  case inr.inr => exact congrArg some (zextLevel_eq_ofNat 0#8)

/-- Settles O13. -/
theorem readsAfterResetAnswerZero : Obligations.ReadsAfterResetAnswerZero :=
  fun i hi => ⟨_, exec_eq i State.reset, Block.reset_responseTo hi⟩

/-! ### SET_BRIGHTNESS 0 and the reset state (R177) -/

/-- The off level clears every brightness field but the compare register and the count. -/
theorem Block.setLevel_off_eq_reset {b : Block} (hocr : b.pwmOcr = 0#8) (hcnt : b.pwmCnt = 0#8) :
    b.setLevel levelOff = { Block.reset with
      tbSec := b.tbSec, tbUsec := b.tbUsec, dbCnt := b.dbCnt, dbDown := b.dbDown } := by
  rw [Block.setLevel_of_off, hocr, hcnt]
  rfl

/-- Settles O35: the reset block is one of the blocks of the first clause. -/
theorem setZeroLeavesResetBrightness : Obligations.SetZeroLeavesResetBrightness :=
  ⟨fun s hocr hcnt => ⟨_, exec_eq (.setBrightness levelOff) s, Block.setLevel_off_eq_reset hocr hcnt⟩,
    _, exec_eq (.setBrightness levelOff) State.reset, Block.setLevel_off_eq_reset (b := Block.reset) rfl rfl⟩

end Sys2Proof.Machine
end
